-- ==== Sys2Proof/Word.lean ====
section
/-! DEFINITION. Word.lean: the unsigned word types of the block (00_scope.md R7: `u8`, `u16`, `u32`). -/

namespace Sys2Proof

/-- `u8`: a byte of the wire, of the body buffer or of a port. -/
abbrev Byte := BitVec 8

/-- `u16`: a length, a CRC, a body index. -/
abbrev U16 := BitVec 16

/-- `u32`: a parameter of a CmdRsp body. -/
abbrev U32 := BitVec 32

end Sys2Proof
end

