-- ==== Sys2Proof/Config.lean ====
section
/-! DEFINITION. Config.lean: the parameters of an instance (00_scope.md R5, R6) and the free values, which the spec
leaves open and for which no number is chosen here. -/

namespace Sys2Proof

/-- The configuration record of 00_scope.md R5: every numeric literal the block depends on. -/
structure Params where
  /-- START_BYTE -/
  startByte : Byte
  /-- TYPE_ACK -/
  typeAck : Byte
  /-- TYPE_NAK -/
  typeNak : Byte
  /-- TYPE_ACK_ABORT -/
  typeAckAbort : Byte
  /-- TYPE_CMD -/
  typeCmd : Byte
  /-- TYPE_DATA -/
  typeData : Byte
  /-- TYPE_PING -/
  typePing : Byte
  /-- TYPE_PING_RSP -/
  typePingRsp : Byte
  /-- CRC_POLY, the generator polynomial without its x^16 term -/
  crcPoly : U16
  /-- CRC_SEED_DEFAULT -/
  crcSeedDefault : U16
  /-- MAX_PARAMS -/
  maxParams : Nat
  /-- MAX_DATA_LEN -/
  maxDataLen : Nat
  /-- MAX_CMD_LEN -/
  maxCmdLen : Nat
  /-- PINGRSP_BODY_LEN -/
  pingRspBodyLen : Nat
  /-- BUF_SIZE -/
  bufSize : Nat
  deriving DecidableEq, Repr

/-- The default instance of R5: the values of this hardware. -/
def Params.hardware : Params where
  startByte := 0x5A#8
  typeAck := 0xA1#8
  typeNak := 0xA2#8
  typeAckAbort := 0xA3#8
  typeCmd := 0xA4#8
  typeData := 0xA5#8
  typePing := 0xA6#8
  typePingRsp := 0xA7#8
  crcPoly := 0x1021#16
  crcSeedDefault := 0x0000#16
  maxParams := 7
  maxDataLen := 256
  maxCmdLen := 32
  pingRspBodyLen := 8
  bufSize := 256

/-- The constraints between parameters that every instance keeps (00_scope.md R6), in its order. -/
abbrev Params.Ok (p : Params) : Prop :=
  [p.startByte, p.typeAck, p.typeNak, p.typeAckAbort, p.typeCmd, p.typeData, p.typePing, p.typePingRsp].Nodup ∧
  4 + 4 * p.maxParams ≤ p.maxCmdLen ∧
  max p.maxDataLen (max p.maxCmdLen p.pingRspBodyLen) ≤ p.bufSize ∧
  2 ≤ p.pingRspBodyLen ∧
  p.maxDataLen < 2 ^ 16 ∧ p.maxCmdLen < 2 ^ 16

/-! ### Free values

No value is given to any of these: they have no body, so no proof can see one. The first five take the number of the
reset and what the register held before it, since an implementation "may leave them unchanged" (R220). -/

/-- `typ` after a reset (10_state.md R38, U3). DESIGN CHOICE: a free value (log 3). -/
opaque Config.typAfterReset : Nat → Byte → Byte

/-- `len` after a reset (R38, U3). DESIGN CHOICE: a free value (log 3). -/
opaque Config.lenAfterReset : Nat → U16 → U16

/-- `crc_rx` after a reset (R38, U3). DESIGN CHOICE: a free value (log 3). -/
opaque Config.crcRxAfterReset : Nat → U16 → U16

/-- `idx` after a reset (R38, U3). DESIGN CHOICE: a free value (log 3). -/
opaque Config.idxAfterReset : Nat → U16 → U16

/-- A buffer byte that had been written, after a reset: number of the reset, index, what it held (R38, R52, U3).
DESIGN CHOICE: a free value (log 4). -/
opaque Config.bufByteAfterReset : Nat → Nat → Byte → Byte

/-- What a buffer byte that nothing has written reads as: number of the latest reset, index (20_memory.md R52, U3).
DESIGN CHOICE: a free value (log 4). -/
opaque Config.unwrittenByte : Nat → Nat → Byte

/-- What stands on the port `enc_param<k>` when the client does not drive it. DESIGN CHOICE: a free value (log 11). -/
opaque Config.undrivenParam : Nat → U32

/-- The client's payload byte at `pl_raddr` = i when the client's list does not give it. DESIGN CHOICE: a free value
(log 11). -/
opaque Config.undrivenPayload : Nat → Byte

end Sys2Proof
end

