-- ==== Sys2Proof/Machine/Bytes.lean ====
section
/-! DEFINITION. Machine/Bytes.lean: byte slices and the little-endian byte order of every multi-byte field
(00_scope.md R7; 20_memory.md R55). -/

namespace Sys2Proof

/-- `lo(v)` = `v[7:0]` (R7). -/
def lo (v : U16) : Byte := v.setWidth 8

/-- `hi(v)` = `v[15:8]` (R7). -/
def hi (v : U16) : Byte := (v >>> 8).setWidth 8

/-- `zext_16(b)` (R7). -/
def zext16 (b : Byte) : U16 := b.setWidth 16

/-- `le16(b0, b1)` = `b0 | (b1 << 8)`: the first byte is the low byte (R7, R55). -/
def le16 (b0 b1 : Byte) : U16 := zext16 b0 ||| (zext16 b1 <<< 8)

/-- `le32(b0, b1, b2, b3)` (R7, R78). -/
def le32 (b0 b1 b2 b3 : Byte) : U32 :=
  b0.setWidth 32 ||| (b1.setWidth 32 <<< 8) ||| (b2.setWidth 32 <<< 16) ||| (b3.setWidth 32 <<< 24)

/-- `bytes_le16(v)` (R7). -/
def bytesLe16 (v : U16) : List Byte := [lo v, hi v]

/-- `bytes_le32(v)` = `[v[7:0], v[15:8], v[23:16], v[31:24]]` (R7). -/
def bytesLe32 (v : U32) : List Byte :=
  [v.setWidth 8, (v >>> 8).setWidth 8, (v >>> 16).setWidth 8, (v >>> 24).setWidth 8]

/-- The length field of a body (30_encoding.md R76): it counts body bytes and nothing else. -/
def lenField (body : List Byte) : U16 := BitVec.ofNat 16 body.length

end Sys2Proof
end

