-- ==== Sys2Proof/Machine/Ports.lean ====
section
/-! DEFINITION. Machine/Ports.lean: the inputs of the port binding (30_encoding.md R89, R90), what a client presents
next, and the output ports. -/

namespace Sys2Proof

/-- The inputs of CRCGEN at an edge: `crc_op`, `crc_din`. -/
structure CrcIn where
  op : BitVec 2
  din : U16
  deriving DecidableEq, Repr

/-- The inputs of DEC at an edge: `dec_op`, `rx_byte`. -/
structure DecIn where
  op : BitVec 2
  rxByte : Byte
  deriving DecidableEq, Repr

/-- The inputs of ENC at an edge: `enc_op`, `enc_tag`, `enc_flags`, `enc_n`, `enc_param0`, `enc_param1`, … as far as the
client drives them, `enc_len`, and the client's payload bytes from `pl_raddr` = 0 on (log 11). -/
structure EncIn where
  op : BitVec 3
  tag : Byte
  flags : Byte
  n : BitVec 4
  params : List U32
  len : U16
  payload : List Byte
  deriving DecidableEq, Repr

/-- The inputs at one rising edge of `clk` (R90). -/
structure Edge where
  rst : Bool
  crc : CrcIn
  dec : DecIn
  enc : EncIn
  deriving DecidableEq, Repr

/-- `crc_op` = 0, NOP (R89). -/
def CrcIn.nop : CrcIn := { op := 0, din := 0 }

/-- `dec_op` = 0, NOP (R89). -/
def DecIn.nop : DecIn := { op := 0, rxByte := 0 }

/-- `enc_op` = 0, NOP (R89). -/
def EncIn.nop : EncIn := { op := 0, tag := 0, flags := 0, n := 0, params := [], len := 0, payload := [] }

/-- An edge with no operation for any unit (R89). -/
def Edge.nop : Edge := { rst := false, crc := CrcIn.nop, dec := DecIn.nop, enc := EncIn.nop }

/-- What the client presents next (00_scope.md R13; log 1): one clock edge; or a run of bytes from the transport, each
to be presented to one DEC.BYTE, one a step, in the order received (R11; 20_memory.md R60; 70_reset_and_hazards.md R229);
or the bytes of a frame as ONE instruction of the opcode table, which stands for its run of DEC.BYTE steps (DESIGN CHOICE,
log 2). -/
inductive Presented where
  | edge (e : Edge)
  | wire (bytes : List Byte)
  | frame (bytes : List Byte)
  deriving DecidableEq, Repr

/-- The output ports of R90 but for `pl_raddr` (a matter of cycles, log 14), with the index `buf_raddr` fixed. `txData`
holds the `txLen` valid bytes (log 19). -/
structure PortOut where
  crcAcc : U16
  evt : BitVec 3
  st : BitVec 3
  typ : Byte
  len : U16
  crcRx : U16
  idx : U16
  bufRdata : Byte
  txLen : BitVec 6
  txData : List Byte
  encErr : Bool
  deriving DecidableEq, Repr

end Sys2Proof
end

