-- ==== Sys2Proof/Machine/State.lean ====
section
/-! DEFINITION. Machine/State.lean: the state of the block (10_state.md), the reasons a step can stop, and the state
after reset. -/

namespace Sys2Proof.Machine

/-- The values of the parser state register `st` (10_state.md R21, R28). -/
inductive ParserState where
  | start | type | lenLow | lenHigh | crcLow | crcHigh | data
  /-- Transient: entered and left inside one DEC.BYTE (R29). -/
  | done
  deriving DecidableEq, Repr

/-- The result of a DEC.BYTE (60_exceptions.md R190). -/
inductive Event where
  /-- None: byte consumed, no frame finished, no error. -/
  | noEvent
  | rx | rxErrorCrc | rxErrorLen | rxErrorType
  deriving DecidableEq, Repr

/-- Why the machine stops. Both happen only in states that no run reaches (log 7). -/
inductive Fault where
  /-- Raised by DEC.BYTE in LenHigh or Data, or by the evaluation at Done, when `typ` is no type for which the rule names
  a limit, a body length or a check (R127, R132, R135). SAFE: the spec gives no effect there and no run gets there. -/
  | frameTypeUndefined
  /-- Raised by a buffer access at an index outside 0 to BUF_SIZE - 1, which no rule makes (20_memory.md R51). SAFE. -/
  | bufferIndex
  deriving DecidableEq, Repr

/-- Why the machine gives an instruction no meaning. -/
inductive Refusal where
  /-- Raised by an arm of `exec` whose instruction has no meaning yet. SAFE. -/
  | notModelled (mnemonic : String)
  /-- Raised by DEC.BYTE with `st` = Done, which the spec treats as `refuse` (10_state.md R30, R120, U9; log 6). SAFE: no
  run gets there (R133). -/
  | parserInDone
  deriving DecidableEq, Repr

/-- The state. `crcAcc` is CRCGEN's; `st`, `typ`, `len`, `crcRx`, `idx`, `buf` are DEC's (10_state.md, table of
section 1); `events`, `txData`, `encErr` are the results the port binding shows (30_encoding.md R90; log 5); `inputs` is
what the client presents next (log 1); `resets` counts resets and is the model's own (log 3). -/
structure State where
  /-- `crc_acc` (R26) -/
  crcAcc : U16
  /-- `st` (R21) -/
  st : ParserState
  /-- `typ` (R22) -/
  typ : Byte
  /-- `len` (R23) -/
  len : U16
  /-- `crc_rx` (R24) -/
  crcRx : U16
  /-- `idx` (R25) -/
  idx : U16
  /-- `buf` (R35): the bytes written since power-on, index strictly rising -/
  buf : List Host.Cell
  /-- the events of the latest step, in order; the port `evt` shows the last one -/
  events : List Event
  /-- `tx_data0` to `tx_data<tx_len - 1>` -/
  txData : List Byte
  /-- `enc_err` -/
  encErr : Bool
  /-- what the client presents next, first item first -/
  inputs : List Presented
  /-- how many resets there have been -/
  resets : Nat
  deriving DecidableEq, Repr

/-- The state right after the first reset (10_state.md R38; 70_reset_and_hazards.md R220): `st` = Start, `crc_acc` =
0x0000, no result on the outputs. `typ`, `len`, `crc_rx`, `idx` are unspecified: free values (DESIGN CHOICE, log 3; the
second argument says nothing, since the functions have no body). Nothing of `buf` has been written (log 4) and the client
has presented nothing yet (log 1). -/
def State.reset : State where
  crcAcc := Params.hardware.crcSeedDefault
  st := .start
  typ := Config.typAfterReset 0 0
  len := Config.lenAfterReset 0 0
  crcRx := Config.crcRxAfterReset 0 0
  idx := Config.idxAfterReset 0 0
  buf := []
  events := []
  txData := []
  encErr := false
  inputs := []
  resets := 1

/-- What a step answers. -/
abbrev Result := Host.Outcome State Fault Refusal

end Sys2Proof.Machine
end

