-- ==== Sys2Proof/Machine/Ops.lean ====
section
/-! DEFINITION. Machine/Ops.lean: the named operations over the buffer and the registers, taking an event, reset, and
the sequencing of operations. -/

namespace Sys2Proof.Machine

/-! ### The body buffer as a list of cells -/

/-- The byte listed at index `i`. -/
def Memory.find (i : Nat) : List Host.Cell → Option Byte
  | [] => none
  | (j, v) :: rest => if j = i then some v else Memory.find i rest

/-- List the byte `v` at index `i`, in the canonical form. -/
def Memory.put (i : Nat) (v : Byte) : List Host.Cell → List Host.Cell
  | [] => [(i, v)]
  | (j, w) :: rest =>
    if i < j then (i, v) :: (j, w) :: rest
    else if i = j then (i, v) :: rest
    else (j, w) :: Memory.put i v rest

/-- Every index is at least `low`, below `bound`, and the indexes rise strictly. -/
def Memory.rising (low bound : Nat) : List Host.Cell → Bool
  | [] => true
  | (j, _) :: rest => decide (low ≤ j) && decide (j < bound) && Memory.rising (j + 1) bound rest

/-- The canonical form: indexes inside the buffer (R35), strictly rising. An unlisted index reads as a free value, which
no listed byte can be shown to equal, so a written index stays listed (log 4). -/
def Memory.wf (bound : Nat) (m : List Host.Cell) : Bool := Memory.rising 0 bound m

/-- What a reset leaves of the bytes that had been written: each a free value (R38, R220; log 4). -/
def Memory.afterReset (n : Nat) (m : List Host.Cell) : List Host.Cell :=
  m.map fun c => (c.1, Config.bufByteAfterReset n c.1 c.2)

/-! ### Reading and writing the buffer -/

/-- `buf[i]`: the byte last written, or the free value of an index not written (20_memory.md R52). No side effect. -/
def bufByte (s : State) (i : Nat) : Byte := (Memory.find i s.buf).getD (Config.unwrittenByte s.resets i)

/-- `buf[0..n]`, the elements 0 to n - 1 (00_scope.md R7). -/
def bufSlice (s : State) (n : Nat) : List Byte := (List.range n).map (bufByte s)

/-- `buf[0..n]` as an operation reads it; an access outside the buffer is a fault (R51; log 7). -/
def bufPrefix (p : Params) (s : State) (n : Nat) : Except Fault (List Byte) :=
  if n ≤ p.bufSize then .ok (bufSlice s n) else .error .bufferIndex

/-- `BufRead(i)` for the client: one byte, `0 ≤ i < BUF_SIZE` (R52). -/
def bufRead (p : Params) (s : State) (i : Nat) : Except Fault Byte :=
  if i < p.bufSize then .ok (bufByte s i) else .error .bufferIndex

/-- `BufWrite(i, v)`: `buf[i]` holds `v`, no other element changes (R53); outside the buffer a fault (R51; log 7). -/
def bufWrite (p : Params) (i : Nat) (v : Byte) (s : State) : Except Fault State :=
  if i < p.bufSize then .ok { s with buf := Memory.put i v s.buf } else .error .bufferIndex

/-! ### Events: entry and return -/

/-- `emit E`: the operation's result is the event (R7, R190). It is stored in no register (R33); the model keeps the
events of the latest step on its outputs (log 5). -/
def emit (e : Event) (s : State) : State := { s with events := s.events ++ [e] }

/-- The entry of an event, Rx or one of the three errors, complete: `st <- Start` and the event as the result. No
register is saved, no cause register written, no mode changes (60_exceptions.md R198; R132, R133). There is no return
operation: the next byte is handled in Start like any other (R199). -/
def endFrame (e : Event) (s : State) : State := emit e { s with st := .start }

/-! ### Sequencing -/

/-- One operation after another: the second sees the complete effect of the first (R61). -/
def andThen (r : Result) (f : State → Result) : Result :=
  match r with
  | .next s => f s
  | .fault r => .fault r
  | .refused r => .refused r

/-! ### Results on the output ports, and reset -/

/-- What the outputs show after an edge whose operations give no result: `evt` None, `tx_len` 0, `enc_err` 0 (R90). -/
def clearOutputs (s : State) : State := { s with events := [], txData := [], encErr := false }

/-- The result of an encoder: its bytes, or, for a refused operation, no bytes and `enc_err` = 1 (43_encoders.md R175). -/
def setTx (r : Option (List Byte)) (s : State) : State :=
  match r with
  | some bytes => { s with txData := bytes, encErr := false }
  | none => { s with txData := [], encErr := true }

/-- Reset (70_reset_and_hazards.md R220): `st` Start, `crc_acc` the default seed 0x0000, every other register and every
buffer byte unspecified, a free value (log 3, log 4), the outputs as after no operation (R90). A frame in progress is
abandoned without an event (R223). What the client presents next is not the block's state. -/
def applyReset (p : Params) (s : State) : State where
  crcAcc := p.crcSeedDefault
  st := .start
  typ := Config.typAfterReset s.resets s.typ
  len := Config.lenAfterReset s.resets s.len
  crcRx := Config.crcRxAfterReset s.resets s.crcRx
  idx := Config.idxAfterReset s.resets s.idx
  buf := Memory.afterReset s.resets s.buf
  events := []
  txData := []
  encErr := false
  inputs := s.inputs
  resets := s.resets + 1

end Sys2Proof.Machine
end

