-- ==== Sys2Proof/Machine/CrcOps.lean ====
section
/-! DEFINITION. Machine/CrcOps.lean: the operations of CRCGEN (40_crc16.md R106, R107). -/

namespace Sys2Proof.Machine

/-- CRC.SEED (R106): `crc_acc <- seed`. -/
def execCrcSeed (seed : U16) (s : State) : Result := .next { s with crcAcc := seed }

/-- CRC.BYTE (R107): `crc_acc <- crc16_step(crc_acc, b)`. -/
def execCrcByte (b : Byte) (s : State) : Result := .next { s with crcAcc := crc16Step Params.hardware s.crcAcc b }

end Sys2Proof.Machine
end

