-- ==== Sys2Proof/Syntax.lean ====
section
/-! DEFINITION. Syntax.lean: the instructions, one constructor for each row of spec/opcode_table.json: the seven frame
types on the wire and the eight interface operations (30_encoding.md R70 to R75, R80, R89). -/

namespace Sys2Proof

/-- The fifteen rows of the opcode table. A frame carries the fields its sender chose; its CRC field may be wrong, and
the parser then answers RxErrorCrc. -/
inductive Instr where
  /-- ACK, format BARE (R71, R150). -/
  | ack
  /-- NAK, format BARE (R71, R151). -/
  | nak
  /-- ACK_ABORT, format BARE (R71, R152). -/
  | ackAbort
  /-- CMD, format FRAMED: the CRC field and the body; `len` is the length of the body (R72, R74, R76, R153). -/
  | cmd (crc : U16) (body : List Byte)
  /-- DATA, format FRAMED: the CRC field and the payload (R72, R75, R76, R154). -/
  | data (crc : U16) (payload : List Byte)
  /-- PING, format BARE (R71, R155). -/
  | ping
  /-- PING_RSP, format PINGRSP: its body bytes in wire order, `proto_major, proto_minor, proto_bugfix, name, option_l,
  option_h, crc16_l, crc16_h` (R73, R156). -/
  | pingRsp (body : List Byte)
  /-- CRC.SEED (R106). -/
  | crcSeed (seed : U16)
  /-- CRC.BYTE (R107). -/
  | crcByte (b : Byte)
  /-- DEC.BYTE (R120). -/
  | decByte (b : Byte)
  /-- DEC.CLEAR (R136). -/
  | decClear
  /-- ENC.PING (R170). -/
  | encPing
  /-- ENC.ACK (R171). -/
  | encAck
  /-- ENC.CMDRSP: `tag`, `flags`, the count `enc_n`, and the parameters the encoder reads (R172). -/
  | encCmdrsp (tag flags : Byte) (n : BitVec 4) (params : List U32)
  /-- ENC.DATA: `enc_len` and the payload bytes the encoder reads (R173). -/
  | encData (len : U16) (payload : List Byte)
  deriving DecidableEq, Repr

end Sys2Proof
end

