-- ==== Sys2Proof/WellFormed.lean ====
section
/-! DEFINITION. WellFormed.lean: which terms of `Instr` the encodings of 30_encoding.md admit. -/

namespace Sys2Proof

/-- How many parameters ENC.CMDRSP reads: `enc_n` of them, none when the count is out of range and the operation is
refused (43_encoders.md R172, R175; log 11). -/
def paramsRead (p : Params) (n : BitVec 4) : Nat := if n.toNat ≤ p.maxParams then n.toNat else 0

/-- How many payload bytes ENC.DATA reads: `enc_len` of them, none when the length is out of range and the operation is
refused (R173, R175; log 11). -/
def payloadRead (p : Params) (len : U16) : Nat := if len.toNat ≤ p.maxDataLen then len.toNat else 0

/-- The checks on an instruction term: the length limits of R85 and R70, and that an encoder operation carries exactly
the operands the encoder reads (R89). -/
def wellFormed (p : Params) : Instr → Bool
  | .ack => true
  | .nak => true
  | .ackAbort => true
  | .cmd _ body => decide (body.length ≤ p.maxCmdLen)
  | .data _ payload => decide (payload.length ≤ p.maxDataLen)
  | .ping => true
  | .pingRsp body => decide (body.length = p.pingRspBodyLen)
  | .crcSeed _ => true
  | .crcByte _ => true
  | .decByte _ => true
  | .decClear => true
  | .encPing => true
  | .encAck => true
  | .encCmdrsp _ _ n params => decide (params.length = paramsRead p n)
  | .encData len payload => decide (payload.length = payloadRead p len)

end Sys2Proof
end

