-- ==== Sys2Proof/Decode.lean ====
section
/-! DEFINITION. Decode.lean: from the bytes of a frame or the input ports of a unit to an instruction, total and
rejecting by name, and back (30_encoding.md R70 to R81, R89). -/

namespace Sys2Proof

/-- Why an encoding is no instruction. -/
inductive Reject where
  /-- Code 0 of an operation port: no operation (R89). -/
  | nop
  /-- A reserved operation code (R89, U10). -/
  | reserved
  /-- The first byte is not START_BYTE (R83). -/
  | noStartMarker
  /-- The second byte is none of the seven type bytes (R82). -/
  | unknownType
  /-- The declared length exceeds the maximum of the type (R85). -/
  | lenExceeded
  /-- The bytes end before the frame does (R81). -/
  | truncated
  deriving DecidableEq, Repr

/-- The seven frame types of the type map (R80). -/
inductive FrameKind where
  | ack | nak | ackAbort | cmd | data | ping | pingRsp
  deriving DecidableEq, Repr

/-- The three formats (R70). -/
inductive Format where
  | bare | framed | pingRsp
  deriving DecidableEq, Repr

/-- The format of a frame type (R80). -/
def FrameKind.format : FrameKind → Format
  | .ack | .nak | .ackAbort | .ping => .bare
  | .cmd | .data => .framed
  | .pingRsp => .pingRsp

/-- The type byte of a frame type (R80). -/
def FrameKind.typeByte (p : Params) : FrameKind → Byte
  | .ack => p.typeAck
  | .nak => p.typeNak
  | .ackAbort => p.typeAckAbort
  | .cmd => p.typeCmd
  | .data => p.typeData
  | .ping => p.typePing
  | .pingRsp => p.typePingRsp

/-- The type map, from the type byte to the frame type; none for an unrecognized byte (R80, R82). -/
def frameKind (p : Params) (t : Byte) : Option FrameKind :=
  if t = p.typeAck then some .ack
  else if t = p.typeNak then some .nak
  else if t = p.typeAckAbort then some .ackAbort
  else if t = p.typeCmd then some .cmd
  else if t = p.typeData then some .data
  else if t = p.typePing then some .ping
  else if t = p.typePingRsp then some .pingRsp
  else none

/-- The rest of a FRAMED frame after its type byte (R72, R76, R77, R81): `len` is known after two bytes and is checked
then (R85), before the CRC field and the body are asked for. -/
def decodeFramed (maxLen : Nat) (mk : U16 → List Byte → Instr) : List Byte → Except Reject (Instr × List Byte)
  | l0 :: l1 :: tail =>
    if maxLen < (le16 l0 l1).toNat then .error .lenExceeded
    else match tail with
      | c0 :: c1 :: rest =>
        if rest.length < (le16 l0 l1).toNat then .error .truncated
        else .ok (mk (le16 c0 c1) (rest.take (le16 l0 l1).toNat), rest.drop (le16 l0 l1).toNat)
      | _ => .error .truncated
  | _ => .error .truncated

/-- The frame at the front of a byte sequence and the bytes after it (R70 to R73, R80, R81). -/
def decodeFrame (p : Params) : List Byte → Except Reject (Instr × List Byte)
  | [] => .error .truncated
  | b0 :: tail =>
    if b0 ≠ p.startByte then .error .noStartMarker
    else match tail with
      | [] => .error .truncated
      | b1 :: rest =>
        match frameKind p b1 with
        | none => .error .unknownType
        | some .ack => .ok (.ack, rest)
        | some .nak => .ok (.nak, rest)
        | some .ackAbort => .ok (.ackAbort, rest)
        | some .cmd => decodeFramed p.maxCmdLen .cmd rest
        | some .data => decodeFramed p.maxDataLen .data rest
        | some .ping => .ok (.ping, rest)
        | some .pingRsp =>
          if rest.length < p.pingRspBodyLen then .error .truncated
          else .ok (.pingRsp (rest.take p.pingRspBodyLen), rest.drop p.pingRspBodyLen)

/-- `crc_op` with `crc_din`: for BYTE the byte is in bits 7:0 and bits 15:8 are ignored (R89, R90). -/
def decodeCrc (c : CrcIn) : Except Reject Instr :=
  match c.op.toNat with
  | 0 => .error .nop
  | 1 => .ok (.crcSeed c.din)
  | 2 => .ok (.crcByte (lo c.din))
  | _ => .error .reserved

/-- `dec_op` with `rx_byte` (R89, R90). -/
def decodeDec (d : DecIn) : Except Reject Instr :=
  match d.op.toNat with
  | 0 => .error .nop
  | 1 => .ok (.decByte d.rxByte)
  | 2 => .ok .decClear
  | _ => .error .reserved

/-- `params[0]` to `params[n-1]` as the ports carry them (R90; log 11). -/
def readParams (params : List U32) (n : Nat) : List U32 :=
  (List.range n).map fun k => params.getD k (Config.undrivenParam k)

/-- Payload bytes 0 to `len - 1` as the client's memory gives them over the read port (R90, R173; log 11). -/
def readPayload (payload : List Byte) (len : Nat) : List Byte :=
  (List.range len).map fun i => payload.getD i (Config.undrivenPayload i)

/-- `enc_op` with its argument ports; ports an operation does not name are ignored (R89, R90). -/
def decodeEnc (p : Params) (e : EncIn) : Except Reject Instr :=
  match e.op.toNat with
  | 0 => .error .nop
  | 1 => .ok .encPing
  | 2 => .ok .encAck
  | 3 => .ok (.encCmdrsp e.tag e.flags e.n (readParams e.params (paramsRead p e.n)))
  | 4 => .ok (.encData e.len (readPayload e.payload (payloadRead p e.len)))
  | _ => .error .reserved

/-- Where an instruction is encoded: in bytes on the wire, or on the input ports of one unit. -/
inductive Encoded where
  | frame (bytes : List Byte)
  | crc (c : CrcIn)
  | dec (d : DecIn)
  | enc (e : EncIn)
  deriving DecidableEq, Repr

/-- The decoder: the instruction and, for a frame, the bytes that follow it. -/
def decode (p : Params) : Encoded → Except Reject (Instr × List Byte)
  | .frame bytes => decodeFrame p bytes
  | .crc c => (decodeCrc c).map fun i => (i, [])
  | .dec d => (decodeDec d).map fun i => (i, [])
  | .enc e => (decodeEnc p e).map fun i => (i, [])

/-! ### The encoder -/

/-- Format BARE (R71). -/
def bareFrame (p : Params) (typ : Byte) : List Byte := [p.startByte, typ]

/-- The first four bytes of format FRAMED, header and length (R72). -/
def framedHeader (p : Params) (typ : Byte) (len : U16) : List Byte := [p.startByte, typ, lo len, hi len]

/-- Format FRAMED (R72): the CRC field lies between the length and the body. -/
def framedFrame (p : Params) (typ : Byte) (crc : U16) (body : List Byte) : List Byte :=
  framedHeader p typ (lenField body) ++ [lo crc, hi crc] ++ body

/-- Format PINGRSP (R73). -/
def pingRspFrame (p : Params) (body : List Byte) : List Byte := p.startByte :: p.typePingRsp :: body

/-- The words of an instruction, from the frame formats (R71 to R73) and the operation codes and ports (R89, R90). -/
def encode (p : Params) : Instr → Encoded
  | .ack => .frame (bareFrame p p.typeAck)
  | .nak => .frame (bareFrame p p.typeNak)
  | .ackAbort => .frame (bareFrame p p.typeAckAbort)
  | .cmd crc body => .frame (framedFrame p p.typeCmd crc body)
  | .data crc payload => .frame (framedFrame p p.typeData crc payload)
  | .ping => .frame (bareFrame p p.typePing)
  | .pingRsp body => .frame (pingRspFrame p body)
  | .crcSeed seed => .crc { op := 1, din := seed }
  | .crcByte b => .crc { op := 2, din := zext16 b }
  | .decByte b => .dec { op := 1, rxByte := b }
  | .decClear => .dec { op := 2, rxByte := 0 }
  | .encPing => .enc { EncIn.nop with op := 1 }
  | .encAck => .enc { EncIn.nop with op := 2 }
  | .encCmdrsp tag flags n params => .enc { EncIn.nop with op := 3, tag := tag, flags := flags, n := n, params := params }
  | .encData len payload => .enc { EncIn.nop with op := 4, len := len, payload := payload }

/-! ### The numbering of spec/opcode_table.json -/

/-- The bytes of a frame word: the table reads frame bytes 0 and 1 as one 16-bit number with byte 0 in bits 15:8 (R80),
and bits from 16 on are taken as the bytes that follow, eight at a time. The bits above `nbits` are 0, up to the longest
frame, 262 bytes (R154). -/
def tableFrameBytes (nbits w : Nat) : List Byte :=
  BitVec.ofNat 8 (w / 2 ^ 8) :: BitVec.ofNat 8 w ::
    ((List.range (nbits / 8 - 2)).map fun k => BitVec.ofNat 8 (w / 2 ^ (16 + 8 * k))) ++ List.replicate 260 0#8

/-- What an instruction word of the table stands for. A word of one byte is an operation code. The table numbers the
codes of the three operation ports alike, so one code fits up to three rows: the first row of the table that has the
code is meant (1 CRC.SEED, 2 CRC.BYTE, 3 ENC.CMDRSP, 4 ENC.DATA; DESIGN CHOICE, log 10). -/
def tableEncoded (nbits w : Nat) : Encoded :=
  if nbits ≤ 8 then
    if w = 1 ∨ w = 2 then .crc { op := BitVec.ofNat 2 w, din := 0 }
    else .enc { EncIn.nop with op := if w < 8 then BitVec.ofNat 3 w else 7 }
  else .frame (tableFrameBytes nbits w)

/-- The instruction this decoder reads from the table's word `w` of `nbits` bits; none where it refuses. -/
def decodeTableWord (nbits w : Nat) : Option Instr :=
  match decode Params.hardware (tableEncoded nbits w) with
  | .ok (i, _) => some i
  | .error _ => none

end Sys2Proof
end

