-- ==== Sys2Proof/Machine/Operands.lean ====
section
/-! DEFINITION. Machine/Operands.lean: how the fields of a frame are read: limits, CRC coverage, the views of a received
body, and the packet of an Rx (30_encoding.md R74 to R88; 41_decoder_fsm.md R127, R135; 42_frame_types.md R157). -/

namespace Sys2Proof.Machine

/-! ### Limits -/

/-- The length limit of R127, named for CMD and DATA only. -/
def maxLen (p : Params) (typ : Byte) : Option Nat :=
  match frameKind p typ with
  | some .cmd => some p.maxCmdLen
  | some .data => some p.maxDataLen
  | _ => none

/-- `need`, the number of body bytes of the frame in progress (R135). -/
def need (p : Params) (typ : Byte) (len : U16) : Option Nat :=
  match frameKind p typ with
  | some .cmd => some len.toNat
  | some .data => some len.toNat
  | some .pingRsp => some p.pingRspBodyLen
  | _ => none

/-! ### CRC coverage (R86) -/

/-- The CRC of a FRAMED frame: header, length and body, without the CRC field, from the default seed (R86, R111). -/
def framedCrc (p : Params) (typ : Byte) (len : U16) (body : List Byte) : U16 :=
  crc16 p (framedHeader p typ len ++ body) p.crcSeedDefault

/-- The CRC of a PINGRSP frame: header and body but for its last two bytes (R86). -/
def pingRspCrc (p : Params) (body : List Byte) : U16 :=
  crc16 p ([p.startByte, p.typePingRsp] ++ body.take (p.pingRspBodyLen - 2)) p.crcSeedDefault

/-- The CRC a PINGRSP body carries, in its last two bytes, low byte first (R77). -/
def pingRspRxCrc (p : Params) (body : List Byte) : U16 :=
  le16 (body.getD (p.pingRspBodyLen - 2) 0) (body.getD (p.pingRspBodyLen - 1) 0)

/-! ### Views of a received body -/

/-- `body[i]` where the body has it. -/
def bodyByte (body : List Byte) (i : Nat) : Option Byte := body[i]?

/-- `params[k]` of a CmdRsp body, where its four bytes are there (R78, R87). -/
def bodyParam (body : List Byte) (k : Nat) : Option U32 :=
  match body[4 + 4 * k]?, body[5 + 4 * k]?, body[6 + 4 * k]?, body[7 + 4 * k]? with
  | some b0, some b1, some b2, some b3 => some (le32 b0 b1 b2 b3)
  | _, _, _, _ => none

/-- The reading of a CmdRsp body (R74, R87); a field whose bytes are not in the body does not exist. -/
structure CmdView where
  tag : Option Byte
  flags : Option Byte
  rsvd : Option Byte
  paramCount : Option Byte
  params : List (Option U32)
  deriving DecidableEq, Repr

/-- `cmd_view(len, body)` of R87, `body` holding exactly `len` bytes. -/
def cmdView (body : List Byte) : CmdView where
  tag := bodyByte body 0
  flags := bodyByte body 1
  rsvd := bodyByte body 2
  paramCount := bodyByte body 3
  params := match bodyByte body 3 with
    | some n => (List.range n.toNat).map (bodyParam body)
    | none => []

/-- `cmd_wf(len, body)` of R87. -/
def cmdWf (p : Params) (body : List Byte) : Bool :=
  match bodyByte body 3 with
  | some n => decide (n.toNat ≤ p.maxParams) && decide (body.length = 4 + 4 * n.toNat)
  | none => false

/-- `cmd_rsvd_ok(len, body)` of R87. -/
def cmdRsvdOk (body : List Byte) : Bool := decide (bodyByte body 2 = some 0x00#8)

/-- The reading of a PingRsp body (R73, R88). The four leading labels are names only (G3). -/
structure PingRspView where
  protoMajor : Byte
  protoMinor : Byte
  protoBugfix : Byte
  name : Byte
  options : U16
  crc16 : U16
  deriving DecidableEq, Repr

/-- `pingrsp_view(body)` (R79, R88); none for a body that has not eight bytes. -/
def pingRspView : List Byte → Option PingRspView
  | [b0, b1, b2, b3, b4, b5, b6, b7] =>
    some { protoMajor := b0, protoMinor := b1, protoBugfix := b2, name := b3, options := le16 b4 b5, crc16 := le16 b6 b7 }
  | _ => none

/-! ### The packet of an Rx -/

/-- What Rx reports, by frame type (R157). -/
inductive Packet where
  | bare (typ : Byte)
  | cmd (typ : Byte) (len : U16) (crc : U16) (body : List Byte)
  | data (typ : Byte) (len : U16) (crc : U16) (payload : List Byte)
  | pingRsp (typ : Byte) (body : List Byte)
  deriving DecidableEq, Repr

/-- `Rx(packet)`, read from the registers and the buffer at the end of the DEC.BYTE that returned Rx (R157). -/
def packet (p : Params) (s : State) : Option Packet :=
  match frameKind p s.typ with
  | some .cmd => some (.cmd s.typ s.len s.crcRx (bufSlice s s.len.toNat))
  | some .data => some (.data s.typ s.len s.crcRx (bufSlice s s.len.toNat))
  | some .pingRsp => some (.pingRsp s.typ (bufSlice s p.pingRspBodyLen))
  | some _ => some (.bare s.typ)
  | none => none

end Sys2Proof.Machine
end

