-- ==== Sys2Proof/Machine/Encoders.lean ====
section
/-! DEFINITION. Machine/Encoders.lean: the four frame builders of ENC (43_encoders.md R170 to R176). There is none for
NAK, ACK_ABORT or PING_RSP (R174). -/

namespace Sys2Proof.Machine

/-- `build_ping()` (R170). -/
def buildPing (p : Params) : List Byte := [p.startByte, p.typePing]

/-- `build_ack()` (R171). -/
def buildAck (p : Params) : List Byte := [p.startByte, p.typeAck]

/-- The CmdRsp body an encoder builds: `rsvd` is always 0x00 and `param_count` the number of parameters (R172, R84). -/
def cmdrspBody (tag flags : Byte) (params : List U32) : List Byte :=
  [tag, flags, 0x00#8, BitVec.ofNat 8 params.length] ++ params.flatMap bytesLe32

/-- `build_cmdrsp(tag, flags, params)`; none when it is refused (R172, R175). -/
def buildCmdrsp (p : Params) (tag flags : Byte) (params : List U32) : Option (List Byte) :=
  if p.maxParams < params.length then none
  else
    let body := cmdrspBody tag flags params
    let len := lenField body
    let c := framedCrc p p.typeCmd len body
    some (framedHeader p p.typeCmd len ++ bytesLe16 c ++ body)

/-- `build_data(payload)`: header and framing only, six bytes; the payload is not part of the result (R173); none when
it is refused (R175). -/
def buildData (p : Params) (payload : List Byte) : Option (List Byte) :=
  if p.maxDataLen < payload.length then none
  else
    let len := lenField payload
    let c := framedCrc p p.typeData len payload
    some (framedHeader p p.typeData len ++ bytesLe16 c)

/-- ENC.PING (R170). -/
def execEncPing (s : State) : Result := .next (setTx (some (buildPing Params.hardware)) s)

/-- ENC.ACK (R171). -/
def execEncAck (s : State) : Result := .next (setTx (some (buildAck Params.hardware)) s)

/-- ENC.CMDRSP (R172): refused when `enc_n` is out of range (R90, R175). -/
def execEncCmdrsp (tag flags : Byte) (n : BitVec 4) (params : List U32) (s : State) : Result :=
  .next (setTx (if n.toNat ≤ Params.hardware.maxParams then buildCmdrsp Params.hardware tag flags params else none) s)

/-- ENC.DATA (R173): refused when `enc_len` is out of range (R90, R175). -/
def execEncData (len : U16) (payload : List Byte) (s : State) : Result :=
  .next (setTx (if len.toNat ≤ Params.hardware.maxDataLen then buildData Params.hardware payload else none) s)

end Sys2Proof.Machine
end

