-- ==== Sys2Proof/Machine/Parser.lean ====
section
/-! DEFINITION. Machine/Parser.lean: DEC, state by state (41_decoder_fsm.md R120 to R136). -/

namespace Sys2Proof.Machine

/-! ### Evaluation at Done -/

/-- The check of R132: bare frames have none; the others recompute the CRC over the covered bytes and compare. -/
def frameOk (p : Params) (s : State) : Except Fault Bool :=
  match frameKind p s.typ with
  | some .ack => .ok true
  | some .nak => .ok true
  | some .ackAbort => .ok true
  | some .ping => .ok true
  | some .cmd => (bufPrefix p s s.len.toNat).map fun body => framedCrc p s.typ s.len body == s.crcRx
  | some .data => (bufPrefix p s s.len.toNat).map fun body => framedCrc p s.typ s.len body == s.crcRx
  | some .pingRsp => (bufPrefix p s p.pingRspBodyLen).map fun body => pingRspCrc p body == pingRspRxCrc p body
  | none => .error .frameTypeUndefined

/-- Done, inside the operation that completed the frame (R132): evaluate, emit Rx or RxErrorCrc, `st <- Start`. -/
def evaluate (p : Params) (s : State) : Result :=
  match frameOk p s with
  | .ok true => .next (endFrame .rx s)
  | .ok false => .next (endFrame .rxErrorCrc s)
  | .error f => .fault f

/-! ### The states -/

/-- State Start (R121). -/
def decStart (p : Params) (b : Byte) (s : State) : Result :=
  if b = p.startByte then .next (emit .noEvent { s with st := .type }) else .next (emit .noEvent s)

/-- State Type (R122): latch the byte, then R123, R124, R125 or R131. -/
def decType (p : Params) (b : Byte) (s : State) : Result :=
  match (frameKind p b).map FrameKind.format with
  | some .bare => evaluate p { s with typ := b, st := .done }
  | some .pingRsp => .next (emit .noEvent { s with typ := b, idx := 0#16, st := .data })
  | some .framed => .next (emit .noEvent { s with typ := b, st := .lenLow })
  | none => .next (endFrame .rxErrorType { s with typ := b })

/-- State LenLow (R126). -/
def decLenLow (b : Byte) (s : State) : Result := .next (emit .noEvent { s with len := zext16 b, st := .lenHigh })

/-- State LenHigh (R127): complete `len` and apply the length bound. -/
def decLenHigh (p : Params) (b : Byte) (s : State) : Result :=
  match maxLen p s.typ with
  | none => .fault .frameTypeUndefined
  | some m =>
    if m < (le16 (lo s.len) b).toNat then .next (endFrame .rxErrorLen { s with len := le16 (lo s.len) b })
    else .next (emit .noEvent { s with len := le16 (lo s.len) b, st := .crcLow })

/-- State CrcLow (R128). -/
def decCrcLow (b : Byte) (s : State) : Result := .next (emit .noEvent { s with crcRx := zext16 b, st := .crcHigh })

/-- State CrcHigh (R129): complete `crc_rx` and open the body; a frame with `len` = 0 is complete here. -/
def decCrcHigh (p : Params) (b : Byte) (s : State) : Result :=
  if s.len = 0#16 then evaluate p { s with crcRx := le16 (lo s.crcRx) b, idx := 0#16, st := .done }
  else .next (emit .noEvent { s with crcRx := le16 (lo s.crcRx) b, idx := 0#16, st := .data })

/-- State Data (R130): store one body byte; the last one completes the frame. `idx + 1` is compared without wrap (R109). -/
def decData (p : Params) (b : Byte) (s : State) : Result :=
  match need p s.typ s.len with
  | none => .fault .frameTypeUndefined
  | some n =>
    match bufWrite p s.idx.toNat b s with
    | .error f => .fault f
    | .ok s' =>
      if s.idx.toNat + 1 = n then evaluate p { s' with idx := s.idx + 1#16, st := .done }
      else .next (emit .noEvent { s' with idx := s.idx + 1#16 })

/-- DEC.BYTE (R120): exactly one of the state rules; Done is `refuse` (R30, R133; log 6). -/
def decByte (p : Params) (b : Byte) (s : State) : Result :=
  match s.st with
  | .start => decStart p b s
  | .type => decType p b s
  | .lenLow => decLenLow b s
  | .lenHigh => decLenHigh p b s
  | .crcLow => decCrcLow b s
  | .crcHigh => decCrcHigh p b s
  | .data => decData p b s
  | .done => .refused .parserInDone

/-- The bytes of a sequence, each through one DEC.BYTE, in order (20_memory.md R60; 70_reset_and_hazards.md R229). -/
def feed (p : Params) : List Byte → State → Result
  | [], s => .next s
  | b :: bs, s => andThen (decByte p b s) (feed p bs)

/-! ### The operations -/

/-- DEC.BYTE (R120). -/
def execDecByte (b : Byte) (s : State) : Result := decByte Params.hardware b s

/-- DEC.CLEAR (R136): `st <- Start`, nothing else; no event. -/
def execDecClear (s : State) : Result := .next { s with st := .start }

end Sys2Proof.Machine
end

