-- ==== Sys2Proof/Machine/Frames.lean ====
section
/-! DEFINITION. Machine/Frames.lean: the seven frame types as received (42_frame_types.md R150 to R156). A frame's
meaning is that its bytes, as the formats give them, go through DEC.BYTE one after the other (R60); the walks of
42_frame_types.md start with `st` = Start, and in another state the same bytes are taken as that state takes them (R137;
log 2). -/

namespace Sys2Proof.Machine

/-- ACK (R150). -/
def execAck (s : State) : Result := feed Params.hardware (bareFrame Params.hardware Params.hardware.typeAck) s

/-- NAK (R151). -/
def execNak (s : State) : Result := feed Params.hardware (bareFrame Params.hardware Params.hardware.typeNak) s

/-- ACK_ABORT (R152). -/
def execAckAbort (s : State) : Result := feed Params.hardware (bareFrame Params.hardware Params.hardware.typeAckAbort) s

/-- CMD (R153). -/
def execCmd (crc : U16) (body : List Byte) (s : State) : Result :=
  feed Params.hardware (framedFrame Params.hardware Params.hardware.typeCmd crc body) s

/-- DATA (R154). -/
def execData (crc : U16) (payload : List Byte) (s : State) : Result :=
  feed Params.hardware (framedFrame Params.hardware Params.hardware.typeData crc payload) s

/-- PING (R155). -/
def execPing (s : State) : Result := feed Params.hardware (bareFrame Params.hardware Params.hardware.typePing) s

/-- PING_RSP (R156). -/
def execPingRsp (body : List Byte) (s : State) : Result := feed Params.hardware (pingRspFrame Params.hardware body) s

end Sys2Proof.Machine
end

