-- ==== Sys2Proof/Machine/Dispatch.lean ====
section
/-! DEFINITION. Machine/Dispatch.lean: one arm for each instruction. -/

namespace Sys2Proof.Machine

def exec (i : Instr) (s : State) : Host.Outcome State Fault Refusal :=
  match i with
  | .ack => Sys2Proof.Machine.execAck s
  | .nak => Sys2Proof.Machine.execNak s
  | .ackAbort => Sys2Proof.Machine.execAckAbort s
  | .cmd crc body => Sys2Proof.Machine.execCmd crc body s
  | .data crc payload => Sys2Proof.Machine.execData crc payload s
  | .ping => Sys2Proof.Machine.execPing s
  | .pingRsp body => Sys2Proof.Machine.execPingRsp body s
  | .crcSeed seed => Sys2Proof.Machine.execCrcSeed seed s
  | .crcByte b => Sys2Proof.Machine.execCrcByte b s
  | .decByte b => Sys2Proof.Machine.execDecByte b s
  | .decClear => Sys2Proof.Machine.execDecClear s
  | .encPing => Sys2Proof.Machine.execEncPing s
  | .encAck => Sys2Proof.Machine.execEncAck s
  | .encCmdrsp tag flags n params => Sys2Proof.Machine.execEncCmdrsp tag flags n params s
  | .encData len payload => Sys2Proof.Machine.execEncData len payload s

end Sys2Proof.Machine
end

