-- ==== Sys2Proof/Machine/Flags.lean ====
section
/-! DEFINITION. Machine/Flags.lean: the block has no flags and no condition codes (10_state.md R33); what it reports are
the event of DEC.BYTE and the output ports. Here are their codes and the port view (R28, R90, R190). -/

namespace Sys2Proof.Machine

/-- The code of a parser state on the port `st` (10_state.md R28). -/
def ParserState.code : ParserState → BitVec 3
  | .start => 0
  | .type => 1
  | .lenLow => 2
  | .lenHigh => 3
  | .crcLow => 4
  | .crcHigh => 5
  | .data => 6
  | .done => 7

/-- The code of an event on the port `evt` (R90, R190). -/
def Event.code : Event → BitVec 3
  | .noEvent => 0
  | .rx => 1
  | .rxErrorCrc => 2
  | .rxErrorLen => 3
  | .rxErrorType => 4

/-- The event the port `evt` shows: that of the latest DEC.BYTE of the latest step, None when there was none (R90). -/
def evtShown (s : State) : Event := s.events.getLast?.getD .noEvent

/-- The names of the errors in the document's taxonomy (60_exceptions.md R191). -/
inductive FramingError where
  | badCrc | lenExceeded | unknownType
  deriving DecidableEq, Repr

/-- The correspondence of R191; None and Rx are no errors. -/
def Event.framingError : Event → Option FramingError
  | .rxErrorCrc => some .badCrc
  | .rxErrorLen => some .lenExceeded
  | .rxErrorType => some .unknownType
  | .noEvent => none
  | .rx => none

/-- The output ports of R90, with `buf_raddr` at the index given: every register is readable between operations (R20). -/
def portOut (s : State) (bufRaddr : Byte) : PortOut where
  crcAcc := s.crcAcc
  evt := (evtShown s).code
  st := s.st.code
  typ := s.typ
  len := s.len
  crcRx := s.crcRx
  idx := s.idx
  bufRdata := bufByte s bufRaddr.toNat
  txLen := BitVec.ofNat 6 s.txData.length
  txData := s.txData
  encErr := s.encErr

end Sys2Proof.Machine
end

