-- ==== Sys2Proof/Machine/Fetch.lean ====
section
/-! DEFINITION. Machine/Fetch.lean: how a step takes what the client presents next: a clock edge of the port binding
(30_encoding.md R89, R90), or bytes of the transport (20_memory.md R60). -/

namespace Sys2Proof.Machine

/-- The operation one unit's inputs select: performed if there is one; a NOP or a reserved code changes nothing (R89,
U10; log 8). -/
def runUnit (d : Except Reject Instr) (s : State) : Result :=
  match d with
  | .ok i => exec i s
  | .error _ => .next s

/-- One rising edge (R90): reset overrides all three; else each unit performs its operation. The units share no state,
so their order says nothing (R61; log 16). -/
def runEdge (e : Edge) (s : State) : Result :=
  if e.rst then .next (applyReset Params.hardware s)
  else
    andThen (runUnit (decodeCrc e.crc) s) fun s1 =>
      andThen (runUnit (decodeDec e.dec) s1) fun s2 => runUnit (decodeEnc Params.hardware e.enc) s2

/-- The rest of a byte run, before what is presented after it. -/
def pushWire (bytes : List Byte) (rest : List Presented) : List Presented :=
  match bytes with
  | [] => rest
  | b :: bs => .wire (b :: bs) :: rest

/-- Bytes of the transport: the next byte alone goes through DEC.BYTE, one DEC.BYTE in one step (00_scope.md R11;
20_memory.md R60), and the others stay to come. -/
def runWire (bytes : List Byte) (rest : List Presented) (s : State) : Result :=
  match bytes with
  | [] => .next { s with inputs := rest }
  | b :: bs => exec (.decByte b) { s with inputs := pushWire bs rest }

/-- A frame presented as one instruction of the opcode table: the frame at the front of the bytes is run as that
instruction, and bytes after it are bytes of the transport. Bytes that are no frame are taken as such from the first one
on (DESIGN CHOICE, log 2). -/
def runFrame (bytes : List Byte) (rest : List Presented) (s : State) : Result :=
  match decodeFrame Params.hardware bytes with
  | .ok (i, left) => exec i { s with inputs := pushWire left rest }
  | .error _ => runWire bytes rest s

/-- Take what is presented next. The outputs first go to what they show after no operation (R90); with nothing presented
the block holds its state (60_exceptions.md R206; log 9). -/
def runNext (s : State) : Result :=
  match s.inputs with
  | [] => .next (clearOutputs s)
  | .edge e :: rest => runEdge e { clearOutputs s with inputs := rest }
  | .wire bytes :: rest => runWire bytes rest (clearOutputs s)
  | .frame bytes :: rest => runFrame bytes rest (clearOutputs s)

/-- A sequence of operations, one after the other (00_scope.md R13; 40_crc16.md R108). -/
def runOps : List Instr → State → Result
  | [], s => .next s
  | i :: rest, s => andThen (exec i s) (runOps rest)

/-- How an encoded instruction is presented: a frame as its bytes, as one instruction; an operation at an edge on its
unit's ports with NOP for the other units. -/
def presentedOf : Encoded → Presented
  | .frame bytes => .frame bytes
  | .crc c => .edge { Edge.nop with crc := c }
  | .dec d => .edge { Edge.nop with dec := d }
  | .enc e => .edge { Edge.nop with enc := e }

/-- Present an encoded instruction next. -/
def present (e : Encoded) (s : State) : State := { s with inputs := presentedOf e :: s.inputs }

end Sys2Proof.Machine
end

