-- ==== Sys2Proof/Machine/Step.lean ====
section
/-! DEFINITION. Machine/Step.lean: one step of the machine (00_scope.md R11: one operation is one step), and where the
next instruction is presented. -/

namespace Sys2Proof.Machine

/-- One step: take what the client presents next. On an edge and on bytes of the transport one DEC.BYTE is one step
(R11); a frame presented as one instruction is one step (log 2). -/
def step (s : State) : Host.Outcome State Fault Refusal := runNext s

/-- The state with the table's word `w` of `nbits` bits presented next (log 1, log 10). -/
def State.withFetchWord (s : State) (nbits w : Nat) : State := present (tableEncoded nbits w) s

end Sys2Proof.Machine
end

