-- ==== Sys2Proof/Machine/FrameText.lean ====
section
/-! DEFINITION. Machine/FrameText.lean: the textual frame lines of 30_encoding.md R91 as data, and the bytes each line
denotes. An override gives a deliberately malformed frame. -/

namespace Sys2Proof.Machine

/-- A frame line (R91); an option left out is `none`. -/
inductive FrameLine where
  | ack
  | nak
  | ackAbort
  | ping
  | pingRsp (b0 b1 b2 b3 b4 b5 : Byte) (crc : Option U16)
  | cmd (tag flags : Byte) (rsvd : Option Byte) (params : List U32) (len : Option U16) (crc : Option U16)
  | data (payload : List Byte) (len : Option U16) (crc : Option U16)
  | raw (bytes : List Byte)
  deriving DecidableEq, Repr

/-- A FRAMED frame with overrides: without `len=` the length field is the number of body bytes, without `crc=` the CRC
field is the correct value of R86. What that value covers when `len=` differs from the number of body bytes is settled
here: the first `len` of them, `frame[6..6+len]` of R86 (DEDUCED), or all there are when they are fewer (DESIGN CHOICE);
and every body byte of the line is sent (DESIGN CHOICE; V78 writes none for `len=0`) (log 20). -/
def framedLine (p : Params) (typ : Byte) (body : List Byte) (len crc : Option U16) : List Byte :=
  let l := len.getD (lenField body)
  framedHeader p typ l ++ bytesLe16 (crc.getD (framedCrc p typ l (body.take l.toNat))) ++ body

/-- The bytes a frame line denotes (R91). -/
def FrameLine.bytes (p : Params) : FrameLine → List Byte
  | .ack => bareFrame p p.typeAck
  | .nak => bareFrame p p.typeNak
  | .ackAbort => bareFrame p p.typeAckAbort
  | .ping => bareFrame p p.typePing
  | .pingRsp b0 b1 b2 b3 b4 b5 crc =>
    pingRspFrame p ([b0, b1, b2, b3, b4, b5] ++ bytesLe16 (crc.getD (pingRspCrc p [b0, b1, b2, b3, b4, b5])))
  | .cmd tag flags rsvd params len crc =>
    framedLine p p.typeCmd
      ([tag, flags, rsvd.getD 0x00#8, BitVec.ofNat 8 params.length] ++ params.flatMap bytesLe32) len crc
  | .data payload len crc => framedLine p p.typeData payload len crc
  | .raw bytes => bytes

end Sys2Proof.Machine
end

