-- ==== Sys2Proof/Safety.lean ====
section
/-! DEFINITION. Safety.lean: what counts as a safe state, in the terms the statements use. -/

namespace Sys2Proof

open Sys2Proof.Machine

/-- The relations between the registers that the rules keep. A state that meets them is one in which no rule reads a
register or a byte that the frame in progress has not written, no access leaves the buffer and no DEC.BYTE stops. -/
structure Inv (p : Params) (s : State) : Prop where
  /-- `st` is never Done between operations (10_state.md R29; 41_decoder_fsm.md R133). -/
  notDone : s.st ≠ .done
  /-- The buffer is in its canonical form, every index inside it (R35). -/
  bufWf : Memory.wf p.bufSize s.buf = true
  /-- From LenLow to CrcHigh the frame is a CMD or DATA frame (R125, R127). -/
  framedTyp : s.st = .lenLow ∨ s.st = .lenHigh ∨ s.st = .crcLow ∨ s.st = .crcHigh → ∃ m, maxLen p s.typ = some m
  /-- Between the length bytes the high byte of `len` is clear (R23, R126). -/
  lenLowOnly : s.st = .lenHigh → s.len.toNat < 256
  /-- Past LenHigh the length is within the bound of its type (R127). -/
  lenBound : s.st = .crcLow ∨ s.st = .crcHigh → ∃ m, maxLen p s.typ = some m ∧ s.len.toNat ≤ m
  /-- Between the CRC bytes the high byte of `crc_rx` is clear (R24, R128). -/
  crcLowOnly : s.st = .crcHigh → s.crcRx.toNat < 256
  /-- In Data, `idx < need ≤ BUF_SIZE` (20_memory.md R51; R135). -/
  bodyBound : s.st = .data → ∃ n, need p s.typ s.len = some n ∧ s.idx.toNat < n ∧ n ≤ p.bufSize
  /-- In Data, the body bytes before `idx` have been written (70_reset_and_hazards.md R222). -/
  bodyWritten : s.st = .data → ∀ i < s.idx.toNat, (Memory.find i s.buf).isSome = true
  /-- `tx_len` is at most 38 = 10 + 4 × MAX_PARAMS (30_encoding.md R90; R172). -/
  txBound : s.txData.length ≤ 10 + 4 * p.maxParams
  /-- A refused encoder operation gives no bytes (R175). -/
  refusedEmpty : s.encErr = true → s.txData = []

/-- A safe state of this hardware. -/
abbrev SafeState (s : State) : Prop := Inv Params.hardware s

/-- The step answers a next state: neither a fault nor a refusal. -/
abbrev Completes (r : Result) : Prop := ∃ t, r = .next t

/-- Which unit an instruction acts on (00_scope.md R9): the frames and DEC's operations on DEC. -/
inductive UnitOf where
  | crcgen | dec | enc
  deriving DecidableEq, Repr

/-- The unit of an instruction (30_encoding.md R89). -/
def unitOf : Instr → UnitOf
  | .ack => .dec
  | .nak => .dec
  | .ackAbort => .dec
  | .cmd _ _ => .dec
  | .data _ _ => .dec
  | .ping => .dec
  | .pingRsp _ => .dec
  | .crcSeed _ => .crcgen
  | .crcByte _ => .crcgen
  | .decByte _ => .dec
  | .decClear => .dec
  | .encPing => .enc
  | .encAck => .enc
  | .encCmdrsp _ _ _ _ => .enc
  | .encData _ _ => .enc

end Sys2Proof
end

