-- ==== Sys2Proof/Certificates/Slice0/Obligations.lean ====
section
/-! DEFINITION. Certificates/Slice0/Obligations.lean: the statements for the provers. -/

open Sys2Proof Sys2Proof.Machine

/-! ### Words the statements use -/

/-- A byte sequence with bit `j` of byte `k` inverted. -/
def Sys2Proof.flipBit (bs : List Byte) (k j : Nat) : List Byte := bs.modify k fun b => b ^^^ (1#8 <<< j)

/-- A word read as a polynomial over GF(2), bit `i` the coefficient of x^i (40_crc16.md R101(a)). -/
noncomputable def Sys2Proof.bitPoly {w : Nat} (v : BitVec w) : Polynomial (ZMod 2) :=
  ∑ i ∈ Finset.range w, if v.getLsbD i then Polynomial.X ^ i else 0

/-- `n` times the event None. -/
def Sys2Proof.nones (n : Nat) : List Event := List.replicate n .noEvent

/-- The bytes of the CRC.BYTE operations of a sequence, in order. -/
def Sys2Proof.crcBytes (ops : List Instr) : List Byte :=
  ops.filterMap fun i => match i with
    | .crcByte b => some b
    | _ => none

/-- No operation of the sequence is a CRC.SEED. -/
def Sys2Proof.seedFree (ops : List Instr) : Prop := ∀ seed, Instr.crcSeed seed ∉ ops

/-- A FRAMED type with a body inside its limit: CMD up to 32 bytes, DATA up to 256 (30_encoding.md R80, R85). -/
def Sys2Proof.framedOk (typ : Byte) (body : List Byte) : Prop :=
  (typ = 0xA4#8 ∧ body.length ≤ 32) ∨ (typ = 0xA5#8 ∧ body.length ≤ 256)

/-- The operation that a unit's inputs select: one, or none for NOP and the reserved codes (30_encoding.md R89, R90). -/
def Sys2Proof.selected (d : Except Reject Instr) : List Instr :=
  match d with
  | .ok i => [i]
  | .error _ => []

/-! ### CRCGEN -/

/-- R106: CRC.SEED writes `crc_acc` with the seed and nothing else; seeding with the current value changes nothing;
`crc_op` = 1 with `crc_din` = seed is its encoding. -/
def Obligations.CrcSeedWritesTheAccumulator : Prop :=
  ∀ (seed : U16) (s : State),
    exec (.crcSeed seed) s = .next { s with crcAcc := seed } ∧
    exec (.crcSeed s.crcAcc) s = .next s ∧
    decodeCrc { op := 1, din := seed } = .ok (.crcSeed seed)

/-- R107: CRC.BYTE writes `crc_acc` with `crc16_step(crc_acc, b)` and nothing else; its byte is `crc_din[7:0]`; the
corner case and the example of the rule. -/
def Obligations.CrcByteStepsTheAccumulator : Prop :=
  (∀ (b : Byte) (s : State),
    exec (.crcByte b) s = .next { s with crcAcc := crc16Step Params.hardware s.crcAcc b }) ∧
  (∀ din : U16, decodeCrc { op := 2, din := din } = .ok (.crcByte (lo din))) ∧
  crc16Step Params.hardware 0x0000#16 0x00#8 = 0x0000#16 ∧
  crc16Step Params.hardware 0x2672#16 0x32#8 = 0x20B5#16

/-- The corner cases and the example that R100 gives for the byte step. -/
def Obligations.CrcByteStepCornerCases : Prop :=
  crc16Step Params.hardware 0x0000#16 0x00#8 = 0x0000#16 ∧ crc16Step Params.hardware 0x0000#16 0x01#8 = 0x1021#16 ∧
  crc16Step Params.hardware 0x0000#16 0x80#8 = 0x9188#16 ∧ crc16Step Params.hardware 0x0000#16 0xFF#8 = 0x1EF0#16 ∧
  crc16Step Params.hardware 0xFFFF#16 0x00#8 = 0xE1F0#16 ∧ crc16Step Params.hardware 0x0000#16 0x31#8 = 0x2672#16

/-- R101(a), the polynomial form: the byte step is the remainder of C(x)·x^8 + B(x)·x^16 on division by
G(x) = x^16 + x^12 + x^5 + 1. The result has 16 bits, so its degree is below 16 by its form. -/
def Obligations.CrcByteStepIsDivisionByTheGenerator : Prop :=
  ∀ (c : U16) (b : Byte),
    (Polynomial.X ^ 16 + Polynomial.X ^ 12 + Polynomial.X ^ 5 + 1 : Polynomial (ZMod 2)) ∣
      bitPoly c * Polynomial.X ^ 8 + bitPoly b * Polynomial.X ^ 16 - bitPoly (crc16Step Params.hardware c b)

/-- R110, and R101(b), the table form: the printed table is the byte step from zero, and looking up
`trunc_16(c << 8) ^ T[hi(c) ^ b]` gives the byte step for every running value and byte. -/
def Obligations.CrcTableGivesTheByteStep : Prop :=
  crcTable.length = 256 ∧
  (∀ k < 256, crcTable[k]? = some (crc16Step Params.hardware 0x0000#16 (BitVec.ofNat 8 k))) ∧
  ∀ (c : U16) (b : Byte), crc16StepByTable c b = crc16Step Params.hardware c b

/-- R104: chunk-associativity, with its corollaries: any split into consecutive pieces, and one more byte. -/
def Obligations.Crc16IsChunkAssociative : Prop :=
  ∀ (p : Params) (seed : U16),
    (∀ a b : List Byte, crc16 p b (crc16 p a seed) = crc16 p (a ++ b) seed) ∧
    (∀ pieces : List (List Byte), pieces.foldl (fun c piece => crc16 p piece c) seed = crc16 p pieces.flatten seed) ∧
    ∀ (a : List Byte) (x : Byte), crc16 p (a ++ [x]) seed = crc16Step p (crc16 p a seed) x

/-- R105(a), (b), (e): linearity over GF(2), the effect of the seed, and the residue of a message followed by its CRC,
high byte first. -/
def Obligations.Crc16IsLinearWithZeroResidue : Prop :=
  (∀ (p : Params) (s t : List Byte) (u v : U16), s.length = t.length →
    crc16 p (List.zipWith (fun x y => x ^^^ y) s t) (u ^^^ v) = crc16 p s u ^^^ crc16 p t v) ∧
  (∀ (p : Params) (s : List Byte) (u : U16),
    crc16 p s u = crc16 p s 0#16 ^^^ crc16 p (List.replicate s.length 0#8) u) ∧
  ∀ (p : Params) (s : List Byte) (u : U16), crc16 p (s ++ [hi (crc16 p s u), lo (crc16 p s u)]) u = 0#16

/-- R105(c): two sequences of equal length that differ in exactly one bit have different CRCs. -/
def Obligations.OneFlippedBitChangesTheCrc : Prop :=
  ∀ (s : List Byte) (u : U16) (k j : Nat), k < s.length → j < 8 →
    crc16 Params.hardware (flipBit s k j) u ≠ crc16 Params.hardware s u

/-- R108: CRC.SEED(seed) and then one CRC.BYTE for each byte leave `crc_acc` = `crc16(bytes, seed)` and change nothing
else; other operations in between do not matter; after reset the CRC.SEED may be left out. -/
def Obligations.SeedAndBytesComputeCrc16 : Prop :=
  (∀ (seed : U16) (bytes : List Byte) (s : State),
    runOps (.crcSeed seed :: bytes.map .crcByte) s =
      .next { s with crcAcc := crc16 Params.hardware bytes seed }) ∧
  (∀ (seed : U16) (ops : List Instr) (s t : State), seedFree ops → runOps (.crcSeed seed :: ops) s = .next t →
    t.crcAcc = crc16 Params.hardware (crcBytes ops) seed) ∧
  ∀ bytes : List Byte,
    runOps (bytes.map .crcByte) State.reset =
      .next { State.reset with crcAcc := crc16 Params.hardware bytes 0x0000#16 }

/-! ### DEC, state by state -/

/-- R121: in Start the start marker leads to Type and any other byte is discarded, with event None and no other write;
any number of other bytes gives no event; a second 0x5A is read as a type byte. -/
def Obligations.StartLooksForTheMarker : Prop :=
  ∀ s : State, s.st = .start →
    exec (.decByte 0x5A#8) s = .next { s with st := .type, events := s.events ++ [.noEvent] } ∧
    (∀ b : Byte, b ≠ 0x5A#8 → exec (.decByte b) s = .next { s with events := s.events ++ [.noEvent] }) ∧
    (∀ bytes : List Byte, 0x5A#8 ∉ bytes →
      feed Params.hardware bytes s = .next { s with events := s.events ++ nones bytes.length }) ∧
    feed Params.hardware [0x5A#8, 0x5A#8] s =
      .next { s with typ := 0x5A#8, events := s.events ++ [.noEvent, .rxErrorType] }

/-- R122 to R125, R131: in Type the byte is latched into `typ` whatever its value; a bare type completes with Rx, PING_RSP
opens its body, CMD and DATA go on to the length, and every other byte, 0x5A among them, is RxErrorType. -/
def Obligations.TypeByteSelectsTheFrame : Prop :=
  ∀ (s : State) (b : Byte), s.st = .type →
    (b ∈ [0xA1#8, 0xA2#8, 0xA3#8, 0xA6#8] →
      exec (.decByte b) s = .next { s with typ := b, st := .start, events := s.events ++ [.rx] }) ∧
    (b = 0xA7#8 →
      exec (.decByte b) s = .next { s with typ := b, idx := 0#16, st := .data, events := s.events ++ [.noEvent] }) ∧
    (b ∈ [0xA4#8, 0xA5#8] →
      exec (.decByte b) s = .next { s with typ := b, st := .lenLow, events := s.events ++ [.noEvent] }) ∧
    (b ∉ [0xA1#8, 0xA2#8, 0xA3#8, 0xA4#8, 0xA5#8, 0xA6#8, 0xA7#8] →
      exec (.decByte b) s = .next { s with typ := b, st := .start, events := s.events ++ [.rxErrorType] })

/-- R126, R128: the low bytes of `len` and `crc_rx` are stored zero-extended, with event None. -/
def Obligations.LowBytesAreZeroExtended : Prop :=
  ∀ (s : State) (b : Byte),
    (s.st = .lenLow → exec (.decByte b) s =
      .next { s with len := zext16 b, st := .lenHigh, events := s.events ++ [.noEvent] }) ∧
    (s.st = .crcLow → exec (.decByte b) s =
      .next { s with crcRx := zext16 b, st := .crcHigh, events := s.events ++ [.noEvent] })

/-- R127: the high length byte completes `len` = L; L above 32 (CMD) or 256 (DATA) is RxErrorLen with `st` Start, else the
parser goes on; a high byte of 2 or more fails for both types and any non-zero one for CMD. In a safe state (the
invariant that reset establishes and every step keeps) `typ` is CMD or DATA here. -/
def Obligations.LengthBoundIsApplied : Prop :=
  ∀ (s : State) (b : Byte) (L : U16), s.st = .lenHigh → L = le16 (lo s.len) b →
    (s.typ = 0xA4#8 → L.toNat ≤ 32 →
      exec (.decByte b) s = .next { s with len := L, st := .crcLow, events := s.events ++ [.noEvent] }) ∧
    (s.typ = 0xA4#8 → 32 < L.toNat →
      exec (.decByte b) s = .next { s with len := L, st := .start, events := s.events ++ [.rxErrorLen] }) ∧
    (s.typ = 0xA5#8 → L.toNat ≤ 256 →
      exec (.decByte b) s = .next { s with len := L, st := .crcLow, events := s.events ++ [.noEvent] }) ∧
    (s.typ = 0xA5#8 → 256 < L.toNat →
      exec (.decByte b) s = .next { s with len := L, st := .start, events := s.events ++ [.rxErrorLen] }) ∧
    (2 ≤ b.toNat → 256 < L.toNat) ∧ (b ≠ 0#8 → 32 < L.toNat) ∧
    (SafeState s → s.typ ∈ [0xA4#8, 0xA5#8])

/-- R129: the high CRC byte completes `crc_rx` and clears `idx`; with `len` > 0 the body follows, with `len` = 0 the
frame is evaluated in this call, over header and length only. -/
def Obligations.HighCrcByteOpensTheBody : Prop :=
  ∀ (s : State) (b : Byte), s.st = .crcHigh →
    (s.len ≠ 0#16 → exec (.decByte b) s =
      .next { s with crcRx := le16 (lo s.crcRx) b, idx := 0#16, st := .data, events := s.events ++ [.noEvent] }) ∧
    (s.len = 0#16 → s.typ ∈ [0xA4#8, 0xA5#8] → exec (.decByte b) s =
      .next { s with
        crcRx := le16 (lo s.crcRx) b, idx := 0#16, st := .start,
        events := s.events ++
          [if crc16 Params.hardware [0x5A#8, s.typ, 0x00#8, 0x00#8] 0#16 = le16 (lo s.crcRx) b then .rx
           else .rxErrorCrc] })

/-- R130 with R132 and R135: in Data the byte is stored at `buf[idx]` and `idx` counts on, whatever the byte; on the last
byte of the body the frame is evaluated with that byte already stored. `u` is the state after the writes of R130. In a
safe state `idx < need ≤ 256`. -/
def Obligations.BodyByteIsStored : Prop :=
  ∀ (s u : State) (b : Byte), s.st = .data →
    u = { s with buf := Memory.put s.idx.toNat b s.buf, idx := s.idx + 1#16 } →
    (s.typ ∈ [0xA4#8, 0xA5#8] → s.len.toNat ≤ 256 → s.idx.toNat + 1 < s.len.toNat →
      exec (.decByte b) s = .next { u with events := s.events ++ [.noEvent] }) ∧
    (s.typ ∈ [0xA4#8, 0xA5#8] → s.len.toNat ≤ 256 → s.idx.toNat + 1 = s.len.toNat →
      exec (.decByte b) s = .next { u with
        st := .start,
        events := s.events ++
          [if crc16 Params.hardware ([0x5A#8, s.typ, lo s.len, hi s.len] ++ bufSlice u s.len.toNat) 0#16 = s.crcRx
            then .rx else .rxErrorCrc] }) ∧
    (s.typ = 0xA7#8 → s.idx.toNat + 1 < 8 →
      exec (.decByte b) s = .next { u with events := s.events ++ [.noEvent] }) ∧
    (s.typ = 0xA7#8 → s.idx.toNat + 1 = 8 →
      exec (.decByte b) s = .next { u with
        st := .start,
        events := s.events ++
          [if crc16 Params.hardware ([0x5A#8, 0xA7#8] ++ bufSlice u 6) 0#16 = le16 (bufByte u 6) (bufByte u 7)
            then .rx else .rxErrorCrc] }) ∧
    (s.idx.toNat < 256 → bufByte u s.idx.toNat = b) ∧
    (∀ a, a ≠ s.idx.toNat → bufByte u a = bufByte s a) ∧
    (SafeState s → ∃ n, need Params.hardware s.typ s.len = some n ∧ s.idx.toNat < n ∧ n ≤ 256)

/-- R132: the evaluation at Done, for every type: `st` becomes Start and the event is Rx or RxErrorCrc by the CRC over the
covered range, for bare frames always Rx; and it is performed inside the DEC.BYTE that completed the frame, after that
byte's writes: on a bare type, at the high CRC byte of an empty body, on the last body byte. -/
def Obligations.EvaluationChecksTheCoveredRange : Prop :=
  (∀ s : State,
    (s.typ ∈ [0xA1#8, 0xA2#8, 0xA3#8, 0xA6#8] →
      evaluate Params.hardware s = .next { s with st := .start, events := s.events ++ [.rx] }) ∧
    (s.typ ∈ [0xA4#8, 0xA5#8] → s.len.toNat ≤ 256 →
      evaluate Params.hardware s = .next { s with
        st := .start,
        events := s.events ++
          [if crc16 Params.hardware ([0x5A#8, s.typ, lo s.len, hi s.len] ++ bufSlice s s.len.toNat) 0#16 = s.crcRx
            then .rx else .rxErrorCrc] }) ∧
    (s.typ = 0xA7#8 →
      evaluate Params.hardware s = .next { s with
        st := .start,
        events := s.events ++
          [if crc16 Params.hardware ([0x5A#8, 0xA7#8] ++ bufSlice s 6) 0#16 = le16 (bufByte s 6) (bufByte s 7)
            then .rx else .rxErrorCrc] })) ∧
  ∀ (s : State) (b : Byte),
    (s.st = .type → b ∈ [0xA1#8, 0xA2#8, 0xA3#8, 0xA6#8] →
      exec (.decByte b) s = evaluate Params.hardware { s with typ := b, st := .done }) ∧
    (s.st = .crcHigh → s.len = 0#16 →
      exec (.decByte b) s =
        evaluate Params.hardware { s with crcRx := le16 (lo s.crcRx) b, idx := 0#16, st := .done }) ∧
    (s.st = .data → s.idx.toNat < 256 → need Params.hardware s.typ s.len = some (s.idx.toNat + 1) →
      exec (.decByte b) s = evaluate Params.hardware { s with
        buf := Memory.put s.idx.toNat b s.buf, idx := s.idx + 1#16, st := .done })

/-- R133, R190: every DEC.BYTE that answers a next state gives exactly one event; after an event other than None `st` is
Start, and `st` is never Done. For every state, reachable or not. -/
def Obligations.EveryEventLeavesTheParserInStart : Prop :=
  ∀ (s t : State) (b : Byte), exec (.decByte b) s = .next t →
    ∃ e, t.events = s.events ++ [e] ∧ (e ≠ .noEvent → t.st = .start) ∧ t.st ≠ .done

/-- The frame of DEC.BYTE, the last column of R134: what each state leaves unchanged. The only byte of the buffer that
may change is the one at `idx`, in state Data. -/
def Obligations.DecByteWritesOnlyWhatItsStateNames : Prop :=
  ∀ (s t : State) (b : Byte), exec (.decByte b) s = .next t →
    t.crcAcc = s.crcAcc ∧ t.txData = s.txData ∧ t.encErr = s.encErr ∧ t.inputs = s.inputs ∧ t.resets = s.resets ∧
    (s.st ≠ .type → t.typ = s.typ) ∧
    (s.st ≠ .lenLow → s.st ≠ .lenHigh → t.len = s.len) ∧
    (s.st ≠ .crcLow → s.st ≠ .crcHigh → t.crcRx = s.crcRx) ∧
    (¬(s.st = .type ∧ b = 0xA7#8) → s.st ≠ .crcHigh → s.st ≠ .data → t.idx = s.idx) ∧
    ∀ a, ¬(s.st = .data ∧ a = s.idx.toNat) → bufByte t a = bufByte s a

/-- The chain of R134: each state is entered only from the one before it, and the only back edges lead to Start. In
particular a 0x5A inside a frame does not restart the parser (R137(c)). -/
def Obligations.StatesAreEnteredInOrder : Prop :=
  ∀ (s t : State) (b : Byte), exec (.decByte b) s = .next t →
    (t.st = .type → s.st = .start ∧ b = 0x5A#8) ∧
    (t.st = .lenLow → s.st = .type ∧ b ∈ [0xA4#8, 0xA5#8]) ∧
    (t.st = .lenHigh → s.st = .lenLow) ∧
    (t.st = .crcLow → s.st = .lenHigh) ∧
    (t.st = .crcHigh → s.st = .crcLow) ∧
    (t.st = .data → (s.st = .type ∧ b = 0xA7#8) ∨ s.st = .crcHigh ∨ s.st = .data)

/-- R30, R120: a DEC.BYTE with `st` = Done is refused. -/
def Obligations.DecByteInDoneIsRefused : Prop :=
  ∀ (s : State) (b : Byte), s.st = .done → exec (.decByte b) s = .refused .parserInDone

/-- R136: DEC.CLEAR writes `st` only, gives no event, and is `dec_op` = 2. -/
def Obligations.DecClearAbandonsTheFrame : Prop :=
  ∀ (s : State) (rxByte : Byte),
    exec .decClear s = .next { s with st := .start } ∧ decodeDec { op := 2, rxByte := rxByte } = .ok .decClear

/-- R137(b): from any safe state the parser is back in Start after at most 261 = 5 + 256 further bytes, whatever they
are, and after at most 9 when the frame is a PING_RSP at its type byte. -/
def Obligations.ParserReturnsToStart : Prop :=
  (∀ (s : State) (bytes : List Byte), SafeState s → bytes.length = 261 →
    ∃ k ≤ 261, ∃ t, feed Params.hardware (bytes.take k) s = .next t ∧ t.st = .start) ∧
  ∀ (s : State) (body : List Byte), s.st = .type → body.length = 8 →
    ∃ t, feed Params.hardware (0xA7#8 :: body) s = .next t ∧ t.st = .start

/-! ### The seven frames -/

/-- R150, R151, R152, R155: from Start the four bare frames give None and then Rx, write `typ` and nothing else of the
parser, and are the bytes 5A A1, 5A A2, 5A A3, 5A A6. -/
def Obligations.BareFramesGiveRx : Prop :=
  ∀ s : State, s.st = .start →
    exec .ack s = .next { s with typ := 0xA1#8, events := s.events ++ [.noEvent, .rx] } ∧
    exec .nak s = .next { s with typ := 0xA2#8, events := s.events ++ [.noEvent, .rx] } ∧
    exec .ackAbort s = .next { s with typ := 0xA3#8, events := s.events ++ [.noEvent, .rx] } ∧
    exec .ping s = .next { s with typ := 0xA6#8, events := s.events ++ [.noEvent, .rx] } ∧
    encode Params.hardware .ack = .frame [0x5A#8, 0xA1#8] ∧ encode Params.hardware .nak = .frame [0x5A#8, 0xA2#8] ∧
    encode Params.hardware .ackAbort = .frame [0x5A#8, 0xA3#8] ∧
    encode Params.hardware .ping = .frame [0x5A#8, 0xA6#8]

/-- R153: a CMD frame from Start, any CRC field and any body of at most 32 bytes: None for every byte but the last, then
Rx when the CRC over header, length and body equals the field, else RxErrorCrc; what every register, every buffer byte
and every output holds afterwards. A declared length above 32 is RxErrorLen with the fourth byte. -/
def Obligations.CmdFrameFromStart : Prop :=
  (∀ (s : State) (crc : U16) (body : List Byte), s.st = .start → body.length ≤ 32 →
    ∃ t, exec (.cmd crc body) s = .next t ∧
      t.st = .start ∧ t.typ = 0xA4#8 ∧ t.len = lenField body ∧ t.crcRx = crc ∧ t.idx = lenField body ∧
      bufSlice t body.length = body ∧ (∀ a, body.length ≤ a → bufByte t a = bufByte s a) ∧
      t.events = s.events ++ nones (5 + body.length) ++
        [if crc16 Params.hardware ([0x5A#8, 0xA4#8, lo (lenField body), hi (lenField body)] ++ body) 0#16 = crc
          then .rx else .rxErrorCrc] ∧
      t.crcAcc = s.crcAcc ∧ t.txData = s.txData ∧ t.encErr = s.encErr ∧ t.inputs = s.inputs ∧ t.resets = s.resets) ∧
  ∀ (s : State) (b0 b1 : Byte), s.st = .start → 32 < (le16 b0 b1).toNat →
    feed Params.hardware [0x5A#8, 0xA4#8, b0, b1] s =
      .next { s with typ := 0xA4#8, len := le16 b0 b1, events := s.events ++ nones 3 ++ [.rxErrorLen] }

/-- R154: the same for DATA, with 256 for 32. -/
def Obligations.DataFrameFromStart : Prop :=
  (∀ (s : State) (crc : U16) (payload : List Byte), s.st = .start → payload.length ≤ 256 →
    ∃ t, exec (.data crc payload) s = .next t ∧
      t.st = .start ∧ t.typ = 0xA5#8 ∧ t.len = lenField payload ∧ t.crcRx = crc ∧ t.idx = lenField payload ∧
      bufSlice t payload.length = payload ∧ (∀ a, payload.length ≤ a → bufByte t a = bufByte s a) ∧
      t.events = s.events ++ nones (5 + payload.length) ++
        [if crc16 Params.hardware ([0x5A#8, 0xA5#8, lo (lenField payload), hi (lenField payload)] ++ payload) 0#16 = crc
          then .rx else .rxErrorCrc] ∧
      t.crcAcc = s.crcAcc ∧ t.txData = s.txData ∧ t.encErr = s.encErr ∧ t.inputs = s.inputs ∧ t.resets = s.resets) ∧
  ∀ (s : State) (b0 b1 : Byte), s.st = .start → 256 < (le16 b0 b1).toNat →
    feed Params.hardware [0x5A#8, 0xA5#8, b0, b1] s =
      .next { s with typ := 0xA5#8, len := le16 b0 b1, events := s.events ++ nones 3 ++ [.rxErrorLen] }

/-- R156: a PING_RSP frame from Start, any eight body bytes: nine times None, then Rx when the last two bytes, low byte
first, are the CRC of the eight bytes before them, else RxErrorCrc; `len` and `crc_rx` are not written. -/
def Obligations.PingRspFrameFromStart : Prop :=
  ∀ (s : State) (b0 b1 b2 b3 b4 b5 c0 c1 : Byte), s.st = .start →
    ∃ t, exec (.pingRsp [b0, b1, b2, b3, b4, b5, c0, c1]) s = .next t ∧
      t.st = .start ∧ t.typ = 0xA7#8 ∧ t.len = s.len ∧ t.crcRx = s.crcRx ∧ t.idx = 8#16 ∧
      bufSlice t 8 = [b0, b1, b2, b3, b4, b5, c0, c1] ∧ (∀ a, 8 ≤ a → bufByte t a = bufByte s a) ∧
      t.events = s.events ++ nones 9 ++
        [if crc16 Params.hardware [0x5A#8, 0xA7#8, b0, b1, b2, b3, b4, b5] 0#16 = le16 c0 c1 then .rx
          else .rxErrorCrc] ∧
      t.crcAcc = s.crcAcc ∧ t.txData = s.txData ∧ t.encErr = s.encErr ∧ t.inputs = s.inputs ∧ t.resets = s.resets

/-- R158(a) with R157: a CMD or DATA frame with a correct CRC fed to a parser in Start gives None for every byte but the
last and Rx for the last, and the packet reported is the frame's type, length, CRC and body, bit for bit. -/
def Obligations.ValidFrameIsReportedAsSent : Prop :=
  ∀ (s : State) (typ : Byte) (crc : U16) (body : List Byte), s.st = .start → framedOk typ body →
    crc = crc16 Params.hardware ([0x5A#8, typ, lo (lenField body), hi (lenField body)] ++ body) 0#16 →
    ∃ t, feed Params.hardware ([0x5A#8, typ, lo (lenField body), hi (lenField body), lo crc, hi crc] ++ body) s = .next t ∧
      t.st = .start ∧ t.events = s.events ++ nones (5 + body.length) ++ [.rx] ∧
      (typ = 0xA4#8 → packet Params.hardware t = some (.cmd typ (lenField body) crc body)) ∧
      (typ = 0xA5#8 → packet Params.hardware t = some (.data typ (lenField body) crc body))

/-- R158(b): invert any one bit of the CRC field or the body of a correct CMD or DATA frame: the same feeding gives None
for every byte but the last and RxErrorCrc for the last, never Rx. -/
def Obligations.OneFlippedBitIsReported : Prop :=
  ∀ (s : State) (typ : Byte) (crc : U16) (body frame : List Byte) (k j : Nat), s.st = .start → framedOk typ body →
    crc = crc16 Params.hardware ([0x5A#8, typ, lo (lenField body), hi (lenField body)] ++ body) 0#16 →
    frame = [0x5A#8, typ, lo (lenField body), hi (lenField body), lo crc, hi crc] ++ body →
    4 ≤ k → k < frame.length → j < 8 →
    ∃ t, feed Params.hardware (flipBit frame k j) s = .next t ∧ t.st = .start ∧
      t.events = s.events ++ nones (5 + body.length) ++ [.rxErrorCrc]

/-- R158, its last sentence: the same two statements for PING_RSP, with the body read as bytes 2 to 9. -/
def Obligations.PingRspIsReportedAndItsFlippedBitsToo : Prop :=
  ∀ (s : State) (fields frame : List Byte) (crc : U16), s.st = .start → fields.length = 6 →
    crc = crc16 Params.hardware ([0x5A#8, 0xA7#8] ++ fields) 0#16 →
    frame = [0x5A#8, 0xA7#8] ++ fields ++ [lo crc, hi crc] →
    (∃ t, feed Params.hardware frame s = .next t ∧ t.st = .start ∧ t.events = s.events ++ nones 9 ++ [.rx] ∧
      packet Params.hardware t = some (.pingRsp 0xA7#8 (fields ++ [lo crc, hi crc]))) ∧
    ∀ k j : Nat, 2 ≤ k → k < 10 → j < 8 →
      ∃ t, feed Params.hardware (flipBit frame k j) s = .next t ∧ t.st = .start ∧
        t.events = s.events ++ nones 9 ++ [.rxErrorCrc]

/-- A frame instruction is its bytes, as the encoder lays them down, through DEC.BYTE one after the other, in every
state (42_frame_types.md; R60). What a frame does in a state other than Start is the model's reading (log 2). -/
def Obligations.FrameRunsAsItsBytes : Prop :=
  ∀ (i : Instr) (bytes : List Byte) (s : State), encode Params.hardware i = .frame bytes →
    exec i s = feed Params.hardware bytes s

/-! ### ENC -/

/-- R170, R171: ENC.PING gives 5A A6 and ENC.ACK gives 5A A1, with `enc_err` 0, and no state changes. -/
def Obligations.PingAndAckAreBuilt : Prop :=
  ∀ s : State,
    exec .encPing s = .next { s with txData := [0x5A#8, 0xA6#8], encErr := false } ∧
    exec .encAck s = .next { s with txData := [0x5A#8, 0xA1#8], encErr := false } ∧
    decodeEnc Params.hardware { EncIn.nop with op := 1 } = .ok .encPing ∧
    decodeEnc Params.hardware { EncIn.nop with op := 2 } = .ok .encAck

/-- R172: ENC.CMDRSP with n = 0 to 7 parameters gives the 10 + 4n bytes of the rule: header, length 4 + 4n, CRC over
header, length and body, and the body with `rsvd` 0x00; no state changes; it is `enc_op` = 3 with its argument ports;
n above 7 is refused. -/
def Obligations.CmdrspIsBuilt : Prop :=
  (∀ (s : State) (tag flags : Byte) (n : BitVec 4) (params : List U32) (body : List Byte) (len : Byte) (c : U16),
    n.toNat ≤ 7 → params.length = n.toNat →
    body = [tag, flags, 0x00#8, n.setWidth 8] ++ params.flatMap bytesLe32 →
    len = BitVec.ofNat 8 (4 + 4 * n.toNat) →
    c = crc16 Params.hardware ([0x5A#8, 0xA4#8, len, 0x00#8] ++ body) 0#16 →
    exec (.encCmdrsp tag flags n params) s =
      .next { s with txData := [0x5A#8, 0xA4#8, len, 0x00#8, lo c, hi c] ++ body, encErr := false } ∧
    ([0x5A#8, 0xA4#8, len, 0x00#8, lo c, hi c] ++ body).length = 10 + 4 * n.toNat ∧
    ∀ e : EncIn, e.op = 3 → e.tag = tag → e.flags = flags → e.n = n → e.params.take n.toNat = params →
      decodeEnc Params.hardware e = .ok (.encCmdrsp tag flags n params)) ∧
  ∀ (s : State) (tag flags : Byte) (n : BitVec 4) (params : List U32), 7 < n.toNat →
    exec (.encCmdrsp tag flags n params) s = .next { s with txData := [], encErr := true }

/-- R173: ENC.DATA with a payload of at most 256 bytes gives six bytes, header and framing, with the CRC over header,
length and payload; the payload is not part of the result; no state changes; it is `enc_op` = 4 with `enc_len` and the
payload bytes the client gives; a length above 256 is refused. -/
def Obligations.DataHeaderIsBuilt : Prop :=
  (∀ (s : State) (len : U16) (payload : List Byte) (c : U16),
    len.toNat ≤ 256 → payload.length = len.toNat →
    c = crc16 Params.hardware ([0x5A#8, 0xA5#8, lo len, hi len] ++ payload) 0#16 →
    exec (.encData len payload) s =
      .next { s with txData := [0x5A#8, 0xA5#8, lo len, hi len, lo c, hi c], encErr := false } ∧
    ∀ e : EncIn, e.op = 4 → e.len = len → e.payload.take len.toNat = payload →
      decodeEnc Params.hardware e = .ok (.encData len payload)) ∧
  ∀ (s : State) (len : U16) (payload : List Byte), 256 < len.toNat →
    exec (.encData len payload) s = .next { s with txData := [], encErr := true }

/-- R175: more than 7 parameters or more than 256 payload bytes are refused: no bytes, `enc_err` = 1, no state changes. -/
def Obligations.EncoderRefusesExcess : Prop :=
  ∀ s : State,
    (∀ (tag flags : Byte) (n : BitVec 4) (params : List U32), 7 < n.toNat →
      exec (.encCmdrsp tag flags n params) s = .next { s with txData := [], encErr := true }) ∧
    ∀ (len : U16) (payload : List Byte), 256 < len.toNat →
      exec (.encData len payload) s = .next { s with txData := [], encErr := true }

/-- R178 for ENC.CMDRSP: what it builds is accepted by the parser, and the packet reported has `tag`, `flags`, `params` as
given, `cmd_wf` and `cmd_rsvd_ok` true (R87). -/
def Obligations.BuiltCmdrspIsReceived : Prop :=
  ∀ (s d : State) (tag flags : Byte) (n : BitVec 4) (params : List U32),
    d.st = .start → n.toNat ≤ 7 → params.length = n.toNat →
    ∃ s' t, exec (.encCmdrsp tag flags n params) s = .next s' ∧ feed Params.hardware s'.txData d = .next t ∧
      t.st = .start ∧ t.events = d.events ++ nones (9 + 4 * n.toNat) ++ [.rx] ∧ t.typ = 0xA4#8 ∧
      cmdWf Params.hardware (bufSlice t t.len.toNat) = true ∧ cmdRsvdOk (bufSlice t t.len.toNat) = true ∧
      cmdView (bufSlice t t.len.toNat) =
        { tag := some tag, flags := some flags, rsvd := some 0x00#8, paramCount := some (n.setWidth 8),
          params := params.map some }

/-- R178 for ENC.DATA, followed by its payload, and for ENC.PING and ENC.ACK. -/
def Obligations.BuiltDataPingAckAreReceived : Prop :=
  (∀ (s d : State) (len : U16) (payload : List Byte),
    d.st = .start → len.toNat ≤ 256 → payload.length = len.toNat →
    ∃ s' t, exec (.encData len payload) s = .next s' ∧ feed Params.hardware (s'.txData ++ payload) d = .next t ∧
      t.st = .start ∧ t.events = d.events ++ nones (5 + payload.length) ++ [.rx] ∧ t.typ = 0xA5#8 ∧ t.len = len ∧
      bufSlice t len.toNat = payload) ∧
  ∀ s d : State, d.st = .start →
    (∃ s', exec .encPing s = .next s' ∧
      feed Params.hardware s'.txData d = .next { d with typ := 0xA6#8, events := d.events ++ [.noEvent, .rx] }) ∧
    ∃ s', exec .encAck s = .next s' ∧
      feed Params.hardware s'.txData d = .next { d with typ := 0xA1#8, events := d.events ++ [.noEvent, .rx] }

/-! ### The machine as a whole -/

/-- For every instance whose parameters meet R6, a DEC.BYTE in a safe state completes and leaves a safe state: every store
is inside the buffer (R51), Done is never held (R29). -/
def Obligations.DecByteKeepsTheInvariantForAllParams : Prop :=
  ∀ p : Params, p.Ok → ∀ (s : State) (b : Byte), Inv p s → ∃ t, decByte p b s = .next t ∧ Inv p t

/-- Every instruction completes in a safe state, whatever its operands, and leaves a safe state. -/
def Obligations.EveryInstructionCompletesInSafeStates : Prop :=
  ∀ (i : Instr) (s : State), SafeState s → ∃ t, exec i s = .next t ∧ SafeState t

/-- Every step from a safe state answers a next state, and that state is safe: no input makes the block stop. -/
def Obligations.EveryStepKeepsTheInvariant : Prop :=
  ∀ s : State, SafeState s → ∃ t, step s = .next t ∧ SafeState t

/-- The state after reset is safe. -/
def Obligations.ResetIsSafe : Prop := SafeState State.reset

/-- R220: `rst` at an edge overrides every operation of that edge: `st` Start, `crc_acc` 0x0000, no result on the outputs;
no step without `rst` resets. Nothing is said of the registers that a reset leaves unspecified. -/
def Obligations.ResetInputOverridesOperations : Prop :=
  State.reset.st = .start ∧ State.reset.crcAcc = 0x0000#16 ∧
  (∀ (s : State) (e : Edge) (rest : List Presented), s.inputs = .edge e :: rest → e.rst = true →
    ∃ t, step s = .next t ∧ t.st = .start ∧ t.crcAcc = 0x0000#16 ∧ t.events = [] ∧ t.txData = [] ∧ t.encErr = false ∧
      t.inputs = rest ∧ t.resets = s.resets + 1) ∧
  ∀ s t : State, step s = .next t → t.resets ≠ s.resets → ∃ e rest, s.inputs = .edge e :: rest ∧ e.rst = true

/-- R222: no event, no state and no reported packet depends on a register or a buffer byte that the stream has not
written: two parsers in Start, whatever else they hold, answer every byte sequence alike. -/
def Obligations.UnspecifiedRegistersAreNeverRead : Prop :=
  ∀ (s t s' : State) (bytes : List Byte), s.st = .start → t.st = .start → s.events = [] → t.events = [] →
    feed Params.hardware bytes s = .next s' →
    ∃ t', feed Params.hardware bytes t = .next t' ∧ t'.st = s'.st ∧ t'.events = s'.events ∧
      (s'.events.getLast? = some .rx → packet Params.hardware t' = packet Params.hardware s')

/-- R61, R112, R176: an instruction changes only the state of its own unit: CRCGEN `crc_acc`, ENC the transmit result, DEC
and the frames the parser; none changes what the client presents or the count of resets. -/
def Obligations.UnitsShareNoState : Prop :=
  ∀ (i : Instr) (s t : State), exec i s = .next t →
    (unitOf i ≠ .crcgen → t.crcAcc = s.crcAcc) ∧
    (unitOf i ≠ .enc → t.txData = s.txData ∧ t.encErr = s.encErr) ∧
    (unitOf i ≠ .dec →
      t.st = s.st ∧ t.typ = s.typ ∧ t.len = s.len ∧ t.crcRx = s.crcRx ∧ t.idx = s.idx ∧ t.buf = s.buf ∧
        t.events = s.events) ∧
    t.inputs = s.inputs ∧ t.resets = s.resets

/-- R61: operations of different units commute, in every state, stops included. -/
def Obligations.OperationsOfDifferentUnitsCommute : Prop :=
  ∀ (i j : Instr) (s : State), unitOf i ≠ unitOf j → andThen (exec i s) (exec j) = andThen (exec j s) (exec i)

/-! ### Steps -/

/-- When what is presented next decodes to an instruction, the step is exec of it, in every state, on the state with the
outputs cleared (R90) and the input consumed, the bytes after a frame left on the wire. For an operation on a port one
operation is one step (R11); that a frame can be presented as one instruction of the opcode table and then is one step is
the model's choice (log 2). -/
def Obligations.StepRunsTheDecodedInstruction : Prop :=
  ∀ (s : State) (c : Encoded) (i : Instr) (left : List Byte) (rest : List Presented),
    s.inputs = presentedOf c :: rest → decode Params.hardware c = .ok (i, left) →
    step s = exec i { clearOutputs s with inputs := pushWire left rest }

/-- R90: at one edge without `rst` each unit performs the operation its inputs select, none on NOP or a reserved code,
whatever the other two ports carry; the order of the units does not show. Which codes select none is stated with it. -/
def Obligations.EdgePerformsOneOperationPerUnit : Prop :=
  ∀ (s : State) (e : Edge) (rest : List Presented), s.inputs = .edge e :: rest → e.rst = false →
    step s = runOps (selected (decodeCrc e.crc) ++ selected (decodeDec e.dec) ++
      selected (decodeEnc Params.hardware e.enc)) { clearOutputs s with inputs := rest } ∧
    step s = runOps (selected (decodeEnc Params.hardware e.enc) ++ selected (decodeDec e.dec) ++
      selected (decodeCrc e.crc)) { clearOutputs s with inputs := rest } ∧
    (selected (decodeCrc e.crc) = [] ↔ e.crc.op ∈ [0#2, 3#2]) ∧
    (selected (decodeDec e.dec) = [] ↔ e.dec.op ∈ [0#2, 3#2]) ∧
    (selected (decodeEnc Params.hardware e.enc) = [] ↔ e.enc.op ∈ [0#3, 5#3, 6#3, 7#3])

/-- R89, U10: an edge whose codes are all NOP or reserved changes no register and shows no result; with nothing presented
the block holds its state (R206; the model's choice of a NOP edge there is log 9). -/
def Obligations.NopAndReservedCodesChangeNothing : Prop :=
  (∀ (s : State) (e : Edge) (rest : List Presented), s.inputs = .edge e :: rest → e.rst = false →
    e.crc.op ∈ [0#2, 3#2] → e.dec.op ∈ [0#2, 3#2] → e.enc.op ∈ [0#3, 5#3, 6#3, 7#3] →
    step s = .next { s with events := [], txData := [], encErr := false, inputs := rest }) ∧
  ∀ s : State, s.inputs = [] → step s = .next { s with events := [], txData := [], encErr := false }

/-- R11, R60: on bytes of the transport one DEC.BYTE is one step: in every state, whatever the bytes, the step is DEC.BYTE of
the first one, and the others are left to come; nothing is skipped and nothing taken twice. Bytes presented as a frame
that are no frame are taken the same way (log 2). -/
def Obligations.WireBytesAreConsumedInOrder : Prop :=
  ∀ (s : State) (b : Byte) (bs : List Byte) (rest : List Presented),
    s.inputs = .wire (b :: bs) :: rest ∨
      (s.inputs = .frame (b :: bs) :: rest ∧ ∃ r, decodeFrame Params.hardware (b :: bs) = .error r) →
    step s = exec (.decByte b) { clearOutputs s with inputs := pushWire bs rest }

/-- R11, R12, R60: a run of `n` bytes of the transport is `n` steps. They leave the registers and the buffer that DEC.BYTE
byte by byte leaves, and after each step `evt` shows the event of that byte. -/
def Obligations.RunningTheWireIsFeedingItsBytes : Prop :=
  ∀ (s t : State) (bytes : List Byte) (rest : List Presented), bytes ≠ [] → s.inputs = .wire bytes :: rest →
    feed Params.hardware bytes s = .next t →
    ∃ events : List Event, t.events = s.events ++ events ∧ events.length = bytes.length ∧
      (∃ u, Sys2Proof.core.run bytes.length s = .next u ∧ u.inputs = rest ∧ u.crcAcc = t.crcAcc ∧ u.st = t.st ∧
        u.typ = t.typ ∧ u.len = t.len ∧ u.crcRx = t.crcRx ∧ u.idx = t.idx ∧ u.buf = t.buf ∧ u.resets = t.resets) ∧
      ∀ k < bytes.length, ∃ v, Sys2Proof.core.run (k + 1) s = .next v ∧ events[k]? = some (evtShown v) ∧
        v.inputs = pushWire (bytes.drop (k + 1)) rest

/-- R90: what the output ports show after an edge without reset, for every `buf_raddr`: `evt` the event of its DEC.BYTE
and None without one; the transmit ports what its encoder operation gives, and no bytes and `enc_err` 0 without one; the
ports that are registers show the register, `buf_rdata` the buffer byte. -/
def Obligations.OutputsShowTheLatestEdge : Prop :=
  ∀ (s t : State) (e : Edge) (rest : List Presented) (bufRaddr : Byte) (o : PortOut),
    s.inputs = .edge e :: rest → e.rst = false → step s = .next t → o = portOut t bufRaddr →
    ((∀ b, decodeDec e.dec ≠ .ok (.decByte b)) → o.evt = Event.noEvent.code) ∧
    (∀ b, decodeDec e.dec = .ok (.decByte b) →
      ∃ u ev, exec (.decByte b) s = .next u ∧ u.events = s.events ++ [ev] ∧ o.evt = ev.code ∧ o.st = u.st.code) ∧
    ((∀ k, decodeEnc Params.hardware e.enc ≠ .ok k) → o.txLen = 0#6 ∧ o.txData = [] ∧ o.encErr = false) ∧
    (∀ k, decodeEnc Params.hardware e.enc = .ok k →
      ∃ u, exec k s = .next u ∧ o.txData = u.txData ∧ o.txLen.toNat = u.txData.length ∧ o.encErr = u.encErr) ∧
    o.crcAcc = t.crcAcc ∧ o.st = t.st.code ∧ o.typ = t.typ ∧ o.len = t.len ∧ o.crcRx = t.crcRx ∧ o.idx = t.idx ∧
      o.bufRdata = bufByte t bufRaddr.toNat

/-! ### Encodings and codes -/

/-- Decoding what the encoder lays down gives the instruction back, for every well-formed instruction, and for a frame
leaves the bytes after it. -/
def Obligations.DecodeOfEncodeIsTheInstruction : Prop :=
  ∀ i : Instr, wellFormed Params.hardware i = true →
    decode Params.hardware (encode Params.hardware i) = .ok (i, []) ∧
    ∀ bytes rest : List Byte, encode Params.hardware i = .frame bytes →
      decodeFrame Params.hardware (bytes ++ rest) = .ok (i, rest)

/-- What the frame decoder accepts is a well-formed frame and its own encoding: each frame has one encoding. -/
def Obligations.DecodedFrameIsItsEncoding : Prop :=
  ∀ (bytes left : List Byte) (i : Instr), decodeFrame Params.hardware bytes = .ok (i, left) →
    wellFormed Params.hardware i = true ∧ ∃ front, encode Params.hardware i = .frame front ∧ bytes = front ++ left

/-- Words written out from the encodings of the spec, with what they stand for (R71 to R75, R89; 95_test_vectors.md V60,
V71, V80). -/
def Obligations.WordsOfTheSpecDecode : Prop :=
  decodeFrame Params.hardware [0x5A#8, 0xA1#8] = .ok (.ack, []) ∧
  decodeFrame Params.hardware [0x5A#8, 0xA4#8, 0x04#8, 0x00#8, 0x6F#8, 0x46#8, 0x0B#8, 0x00#8, 0x00#8, 0x00#8] =
    .ok (.cmd 0x466F#16 [0x0B#8, 0x00#8, 0x00#8, 0x00#8], []) ∧
  decodeFrame Params.hardware [0x5A#8, 0xA5#8, 0x01#8, 0x00#8, 0x9F#8, 0x32#8, 0x00#8] =
    .ok (.data 0x329F#16 [0x00#8], []) ∧
  decodeFrame Params.hardware [0x5A#8, 0xA7#8, 0x00#8, 0x02#8, 0x01#8, 0x50#8, 0x00#8, 0x00#8, 0xAA#8, 0xEA#8] =
    .ok (.pingRsp [0x00#8, 0x02#8, 0x01#8, 0x50#8, 0x00#8, 0x00#8, 0xAA#8, 0xEA#8], []) ∧
  decodeFrame Params.hardware [0x5A#8, 0x5A#8, 0xA1#8] = .error .unknownType ∧
  decodeFrame Params.hardware [0x5A#8, 0xA4#8, 0x21#8, 0x00#8] = .error .lenExceeded ∧
  decodeDec { op := 1#2, rxByte := 0x5A#8 } = .ok (.decByte 0x5A#8) ∧
  decodeCrc { op := 3#2, din := 0x0000#16 } = .error .reserved

/-- The codes of the states and of the events on the ports (R28, R190); codes 5 to 7 of `evt` are never produced. -/
def Obligations.CodesOfStatesAndEvents : Prop :=
  [ParserState.start, .type, .lenLow, .lenHigh, .crcLow, .crcHigh, .data, .done].map ParserState.code =
    [0#3, 1#3, 2#3, 3#3, 4#3, 5#3, 6#3, 7#3] ∧
  [Event.noEvent, .rx, .rxErrorCrc, .rxErrorLen, .rxErrorType].map Event.code = [0#3, 1#3, 2#3, 3#3, 4#3] ∧
  ∀ e : Event, e.code.toNat < 5

/-- R6: the parameters of this hardware meet the constraints between them. -/
def Obligations.HardwareParametersMeetTheConstraints : Prop := Params.hardware.Ok

/-- R91: a frame line without overrides denotes the frame with the correct length and CRC, which the parser accepts: the
four bare lines, CMD, DATA and PING_RSP; the examples of the rule. -/
def Obligations.FrameLinesWithoutOverridesAreValid : Prop :=
  FrameLine.bytes Params.hardware .ack = [0x5A#8, 0xA1#8] ∧ FrameLine.bytes Params.hardware .nak = [0x5A#8, 0xA2#8] ∧
  FrameLine.bytes Params.hardware .ackAbort = [0x5A#8, 0xA3#8] ∧
  FrameLine.bytes Params.hardware .ping = [0x5A#8, 0xA6#8] ∧
  (∀ (s : State) (line : FrameLine), s.st = .start → line ∈ [.ack, .nak, .ackAbort, .ping] →
    ∃ t, feed Params.hardware (FrameLine.bytes Params.hardware line) s = .next t ∧
      t.events = s.events ++ [.noEvent, .rx]) ∧
  FrameLine.bytes Params.hardware (.cmd 0x07#8 0x00#8 none [1#32, 0#32] none none) =
    [0x5A#8, 0xA4#8, 0x0C#8, 0x00#8, 0x4B#8, 0x33#8, 0x07#8, 0x00#8, 0x00#8, 0x02#8, 0x01#8, 0x00#8, 0x00#8, 0x00#8,
      0x00#8, 0x00#8, 0x00#8, 0x00#8] ∧
  (∀ (s : State) (tag flags : Byte) (params : List U32), s.st = .start → params.length ≤ 7 →
    ∃ t, feed Params.hardware (FrameLine.bytes Params.hardware (.cmd tag flags none params none none)) s = .next t ∧
      t.events.getLast? = some .rx) ∧
  (∀ (s : State) (payload : List Byte), s.st = .start → payload.length ≤ 256 →
    ∃ t, feed Params.hardware (FrameLine.bytes Params.hardware (.data payload none none)) s = .next t ∧
      t.events.getLast? = some .rx) ∧
  ∀ (s : State) (b0 b1 b2 b3 b4 b5 : Byte), s.st = .start →
    ∃ t, feed Params.hardware (FrameLine.bytes Params.hardware (.pingRsp b0 b1 b2 b3 b4 b5 none)) s = .next t ∧
      t.events.getLast? = some .rx

/-! ### Frames presented as instructions -/

/-- A frame presented as one instruction is its bytes on the wire, step by step: the one step leaves the registers, the
buffer and the input that one step for each byte of the frame (R11) leaves, and its events are those that `evt` shows after
each of these steps (R12). That a frame can be presented so is the model's choice (log 2). -/
def Obligations.FrameStepIsTheStepsOfItsBytes : Prop :=
  ∀ (s t : State) (bytes left : List Byte) (rest : List Presented) (i : Instr) (n : Nat),
    decodeFrame Params.hardware bytes = .ok (i, left) → n + left.length = bytes.length →
    s.inputs = .frame bytes :: rest → step s = .next t →
    t.events.length = n ∧
      (∃ u, Sys2Proof.core.run n { s with inputs := .wire bytes :: rest } = .next u ∧ u.inputs = t.inputs ∧
        u.crcAcc = t.crcAcc ∧ u.st = t.st ∧ u.typ = t.typ ∧ u.len = t.len ∧ u.crcRx = t.crcRx ∧ u.idx = t.idx ∧
        u.buf = t.buf ∧ u.resets = t.resets) ∧
      ∀ k < n, ∃ v, Sys2Proof.core.run (k + 1) { s with inputs := .wire bytes :: rest } = .next v ∧
        t.events[k]? = some (evtShown v)
end

