-- ==== Sys2Proof/Laws/Bytes.lean ====
section
/-! SUPPORT. Laws/Bytes.lean: taking words apart and putting them together again (00_scope.md R7; 20_memory.md R55). -/

namespace Sys2Proof

@[simp] theorem lo_le16 (b0 b1 : Byte) : lo (le16 b0 b1) = b0 := by
  ext i h; simp [lo, le16, zext16]

@[simp] theorem hi_le16 (b0 b1 : Byte) : hi (le16 b0 b1) = b1 := by
  ext i h; simp [hi, le16, zext16, show 8 + i < 16 by omega, BitVec.getLsbD_eq_getElem h]

@[simp] theorem le16_lo_hi (v : U16) : le16 (lo v) (hi v) = v := by
  ext i h
  by_cases h8 : i < 8
  · simp [le16, lo, hi, zext16, h8, h]
  · simp [le16, lo, hi, zext16, h8, h, show 8 + (i - 8) = i by omega, show i - 8 < 8 by omega]

@[simp] theorem lo_zext16 (b : Byte) : lo (zext16 b) = b := by
  ext i h; simp [lo, zext16]

theorem zext16_toNat (b : Byte) : (zext16 b).toNat = b.toNat := by
  simp [zext16]; omega

/-- `le16` as a number: the first byte is the low byte. -/
theorem le16_toNat (b0 b1 : Byte) : (le16 b0 b1).toNat = b0.toNat + 256 * b1.toNat := by
  have h0 := b0.isLt
  have h1 := b1.isLt
  have hd : (zext16 b0).toNat ||| (zext16 b1 <<< 8).toNat = b0.toNat + 256 * b1.toNat := by
    rw [BitVec.toNat_shiftLeft, zext16_toNat, zext16_toNat, Nat.shiftLeft_eq,
      Nat.mod_eq_of_lt (by omega), Nat.or_comm, Nat.mul_comm, ← Nat.two_pow_add_eq_or_of_lt (i := 8) (by omega)]
    omega
  simpa [le16] using hd

theorem lo_toNat (v : U16) : (lo v).toNat = v.toNat % 256 := by simp [lo]

theorem hi_toNat (v : U16) : (hi v).toNat = v.toNat / 256 := by
  have := v.isLt
  simp [hi, Nat.shiftRight_eq_div_pow]; omega

theorem lenField_toNat {body : List Byte} (h : body.length < 2 ^ 16) : (lenField body).toNat = body.length := by
  simp [lenField]; omega

@[simp] theorem le32_bytesLe32 (v : U32) :
    le32 (v.setWidth 8) ((v >>> 8).setWidth 8) ((v >>> 16).setWidth 8) ((v >>> 24).setWidth 8) = v := by
  ext i h
  rcases (show i < 8 ∨ (8 ≤ i ∧ i < 16) ∨ (16 ≤ i ∧ i < 24) ∨ 24 ≤ i by omega) with h1 | h1 | h1 | h1
  · simp [le32, h1, h, show i < 16 by omega, show i < 24 by omega]
  · simp [le32, h, show ¬ i < 8 by omega, show i < 16 by omega, show i < 24 by omega, show i - 8 < 8 by omega,
      show 8 + (i - 8) = i by omega]
  · simp [le32, h, show ¬ i < 8 by omega, show ¬ i < 16 by omega, show i < 24 by omega, show ¬ i - 8 < 8 by omega,
      show i - 16 < 8 by omega, show 16 + (i - 16) = i by omega]
  · simp [le32, h, show ¬ i < 8 by omega, show ¬ i < 16 by omega, show ¬ i < 24 by omega, show ¬ i - 8 < 8 by omega,
      show ¬ i - 16 < 8 by omega, show i - 24 < 8 by omega, show 24 + (i - 24) = i by omega]

@[simp] theorem bytesLe32_length (v : U32) : (bytesLe32 v).length = 4 := rfl

@[simp] theorem bytesLe16_length (v : U16) : (bytesLe16 v).length = 2 := rfl

end Sys2Proof
end

