-- ==== Sys2Proof/Laws/Config.lean ====
section
/-! SUPPORT. Laws/Config.lean: the parameters of this hardware, one lemma each (00_scope.md R5). -/

namespace Sys2Proof.Params

@[simp] theorem hardware_startByte : hardware.startByte = 0x5A#8 := rfl
@[simp] theorem hardware_typeAck : hardware.typeAck = 0xA1#8 := rfl
@[simp] theorem hardware_typeNak : hardware.typeNak = 0xA2#8 := rfl
@[simp] theorem hardware_typeAckAbort : hardware.typeAckAbort = 0xA3#8 := rfl
@[simp] theorem hardware_typeCmd : hardware.typeCmd = 0xA4#8 := rfl
@[simp] theorem hardware_typeData : hardware.typeData = 0xA5#8 := rfl
@[simp] theorem hardware_typePing : hardware.typePing = 0xA6#8 := rfl
@[simp] theorem hardware_typePingRsp : hardware.typePingRsp = 0xA7#8 := rfl
@[simp] theorem hardware_crcPoly : hardware.crcPoly = 0x1021#16 := rfl
@[simp] theorem hardware_crcSeedDefault : hardware.crcSeedDefault = 0#16 := rfl
@[simp] theorem hardware_maxParams : hardware.maxParams = 7 := rfl
@[simp] theorem hardware_maxDataLen : hardware.maxDataLen = 256 := rfl
@[simp] theorem hardware_maxCmdLen : hardware.maxCmdLen = 32 := rfl
@[simp] theorem hardware_pingRspBodyLen : hardware.pingRspBodyLen = 8 := rfl
@[simp] theorem hardware_bufSize : hardware.bufSize = 256 := rfl

end Sys2Proof.Params
end

