-- ==== Sys2Proof/Laws/Decode.lean ====
section
/-! SUPPORT. Laws/Decode.lean: the type map (30_encoding.md R80) and the frame formats (R71 to R73). -/

namespace Sys2Proof

/-- The type map finds a frame type only under its own type byte (R80). -/
theorem typeByte_of_frameKind {p : Params} {t : Byte} {k : FrameKind} (h : frameKind p t = some k) :
    t = k.typeByte p := by
  unfold frameKind at h
  repeat' split at h
  all_goals first
    | (obtain rfl : _ = k := by simpa using h
       assumption)
    | simp at h

@[simp] theorem frameKind_ack : frameKind Params.hardware 0xA1#8 = some .ack := by decide
@[simp] theorem frameKind_nak : frameKind Params.hardware 0xA2#8 = some .nak := by decide
@[simp] theorem frameKind_ackAbort : frameKind Params.hardware 0xA3#8 = some .ackAbort := by decide
@[simp] theorem frameKind_cmd : frameKind Params.hardware 0xA4#8 = some .cmd := by decide
@[simp] theorem frameKind_data : frameKind Params.hardware 0xA5#8 = some .data := by decide
@[simp] theorem frameKind_ping : frameKind Params.hardware 0xA6#8 = some .ping := by decide
@[simp] theorem frameKind_pingRsp : frameKind Params.hardware 0xA7#8 = some .pingRsp := by decide

/-- The 249 other bytes are unrecognized (R82). -/
theorem frameKind_eq_none {t : Byte}
    (h : t ∉ [0xA1#8, 0xA2#8, 0xA3#8, 0xA4#8, 0xA5#8, 0xA6#8, 0xA7#8]) : frameKind Params.hardware t = none := by
  simp only [List.mem_cons, not_or, List.not_mem_nil, not_false_eq_true, and_true] at h
  simp [frameKind, h]

theorem bareFrame_hardware (t : Byte) : bareFrame Params.hardware t = [0x5A#8, t] := rfl

theorem framedFrame_hardware (t : Byte) (crc : U16) (body : List Byte) :
    framedFrame Params.hardware t crc body =
      [0x5A#8, t, lo (lenField body), hi (lenField body), lo crc, hi crc] ++ body := rfl

theorem pingRspFrame_hardware (body : List Byte) : pingRspFrame Params.hardware body = 0x5A#8 :: 0xA7#8 :: body := rfl

/-- The total lengths of the frame formats (20_memory.md R59). -/
theorem framedFrame_length (p : Params) (t : Byte) (crc : U16) (body : List Byte) :
    (framedFrame p t crc body).length = 6 + body.length := by
  simp [framedFrame, framedHeader]; omega

/-! ### The operands an encoder operation reads (log 11) -/

@[simp] theorem readParams_self (params : List U32) : readParams params params.length = params := by
  apply List.ext_getElem <;> simp +contextual [readParams]

@[simp] theorem readPayload_self (payload : List Byte) : readPayload payload payload.length = payload := by
  apply List.ext_getElem <;> simp +contextual [readPayload]

/-! ### The checks of `wellFormed`, one lemma each -/

theorem wellFormed_cmd {p : Params} {crc : U16} {body : List Byte} :
    wellFormed p (.cmd crc body) = true ↔ body.length ≤ p.maxCmdLen := by simp only [wellFormed, decide_eq_true_eq]

theorem wellFormed_data {p : Params} {crc : U16} {payload : List Byte} :
    wellFormed p (.data crc payload) = true ↔ payload.length ≤ p.maxDataLen := by
  simp only [wellFormed, decide_eq_true_eq]

theorem wellFormed_pingRsp {p : Params} {body : List Byte} :
    wellFormed p (.pingRsp body) = true ↔ body.length = p.pingRspBodyLen := by simp only [wellFormed, decide_eq_true_eq]

theorem wellFormed_encCmdrsp {p : Params} {tag flags : Byte} {n : BitVec 4} {params : List U32} :
    wellFormed p (.encCmdrsp tag flags n params) = true ↔ params.length = paramsRead p n := by
  simp only [wellFormed, decide_eq_true_eq]

theorem wellFormed_encData {p : Params} {len : U16} {payload : List Byte} :
    wellFormed p (.encData len payload) = true ↔ payload.length = payloadRead p len := by
  simp only [wellFormed, decide_eq_true_eq]

end Sys2Proof
end

