-- ==== Sys2Proof/Laws/Memory.lean ====
section
/-! SUPPORT. Laws/Memory.lean: read after write, and that every operation on the buffer keeps its canonical form
(20_memory.md R52, R53; log 4). -/

namespace Sys2Proof.Machine

open Memory

@[simp] theorem find_nil (i : Nat) : find i [] = none := rfl

theorem find_put_same (i : Nat) (v : Byte) (m : List Host.Cell) : find i (put i v m) = some v := by
  induction m with
  | nil => simp [put, find]
  | cons c rest ih =>
    obtain ⟨j, w⟩ := c
    simp only [put]
    split
    · simp [find]
    · split
      · simp [find]
      · simp [find, ih]; omega

theorem find_put_other {i a : Nat} (h : a ≠ i) (v : Byte) (m : List Host.Cell) : find a (put i v m) = find a m := by
  induction m with
  | nil => simp [put, find, Ne.symm h]
  | cons c rest ih =>
    obtain ⟨j, w⟩ := c
    simp only [put]
    split
    · simp [find, Ne.symm h]
    · split
      · rename_i hij; subst hij; simp [find, Ne.symm h]
      · simp [find, ih]

theorem rising_mono {low low' bound : Nat} (h : low' ≤ low) :
    ∀ {m : List Host.Cell}, rising low bound m = true → rising low' bound m = true
  | [], _ => rfl
  | (j, _) :: rest, hm => by
    simp only [rising, Bool.and_eq_true, decide_eq_true_eq] at hm ⊢
    exact ⟨⟨by omega, hm.1.2⟩, hm.2⟩

theorem rising_put {low bound i : Nat} (hl : low ≤ i) (hb : i < bound) (v : Byte) :
    ∀ {m : List Host.Cell}, rising low bound m = true → rising low bound (put i v m) = true
  | [], _ => by simp [put, rising, hl, hb]
  | (j, w) :: rest, hm => by
    simp only [rising, Bool.and_eq_true, decide_eq_true_eq] at hm
    simp only [put]
    split
    · rename_i hij
      simp [rising, hl, hb, hm.1.2, hm.2, Nat.succ_le_of_lt hij]
    · split
      · rename_i hij; subst hij; simp [rising, hl, hb, hm.2]
      · have := rising_put (low := j + 1) (by omega) hb v hm.2
        simp [rising, hm.1.1, hm.1.2, this]

/-- A write inside the buffer keeps the canonical form. -/
theorem wf_put {bound i : Nat} (hb : i < bound) (v : Byte) {m : List Host.Cell} (h : wf bound m = true) :
    wf bound (put i v m) = true := rising_put (Nat.zero_le i) hb v h

theorem rising_map (f : Nat → Byte → Byte) {low bound : Nat} :
    ∀ {m : List Host.Cell}, rising low bound m = true → rising low bound (m.map fun c => (c.1, f c.1 c.2)) = true
  | [], _ => rfl
  | (j, w) :: rest, hm => by
    simp only [rising, Bool.and_eq_true, decide_eq_true_eq, List.map_cons] at hm ⊢
    exact ⟨hm.1, rising_map f hm.2⟩

/-- A reset keeps the canonical form. -/
theorem wf_afterReset {bound : Nat} (n : Nat) {m : List Host.Cell} (h : wf bound m = true) :
    wf bound (afterReset n m) = true := rising_map (Config.bufByteAfterReset n) h

/-- A reset lists exactly the indexes that were listed. -/
theorem find_afterReset (n i : Nat) (m : List Host.Cell) :
    find i (afterReset n m) = (find i m).map (Config.bufByteAfterReset n i) := by
  induction m with
  | nil => rfl
  | cons c rest ih =>
    obtain ⟨j, w⟩ := c
    by_cases h : j = i
    · subst h; simp [afterReset, find]
    · simpa [afterReset, find, h] using ih

/-- The buffer of the state after reset has the canonical form. -/
theorem reset_buf_wf : wf Params.hardware.bufSize State.reset.buf = true := rfl

end Sys2Proof.Machine
end

