-- ==== Sys2Proof/Laws/State.lean ====
section
/-! SUPPORT. Laws/State.lean: one lemma for each field under each named update of the state. -/

namespace Sys2Proof.Machine

/-! ### `emit` -/

@[simp] theorem emit_crcAcc (e : Event) (s : State) : (emit e s).crcAcc = s.crcAcc := rfl
@[simp] theorem emit_st (e : Event) (s : State) : (emit e s).st = s.st := rfl
@[simp] theorem emit_typ (e : Event) (s : State) : (emit e s).typ = s.typ := rfl
@[simp] theorem emit_len (e : Event) (s : State) : (emit e s).len = s.len := rfl
@[simp] theorem emit_crcRx (e : Event) (s : State) : (emit e s).crcRx = s.crcRx := rfl
@[simp] theorem emit_idx (e : Event) (s : State) : (emit e s).idx = s.idx := rfl
@[simp] theorem emit_buf (e : Event) (s : State) : (emit e s).buf = s.buf := rfl
@[simp] theorem emit_events (e : Event) (s : State) : (emit e s).events = s.events ++ [e] := rfl
@[simp] theorem emit_txData (e : Event) (s : State) : (emit e s).txData = s.txData := rfl
@[simp] theorem emit_encErr (e : Event) (s : State) : (emit e s).encErr = s.encErr := rfl
@[simp] theorem emit_inputs (e : Event) (s : State) : (emit e s).inputs = s.inputs := rfl
@[simp] theorem emit_resets (e : Event) (s : State) : (emit e s).resets = s.resets := rfl

/-! ### `endFrame` -/

@[simp] theorem endFrame_crcAcc (e : Event) (s : State) : (endFrame e s).crcAcc = s.crcAcc := rfl
@[simp] theorem endFrame_st (e : Event) (s : State) : (endFrame e s).st = .start := rfl
@[simp] theorem endFrame_typ (e : Event) (s : State) : (endFrame e s).typ = s.typ := rfl
@[simp] theorem endFrame_len (e : Event) (s : State) : (endFrame e s).len = s.len := rfl
@[simp] theorem endFrame_crcRx (e : Event) (s : State) : (endFrame e s).crcRx = s.crcRx := rfl
@[simp] theorem endFrame_idx (e : Event) (s : State) : (endFrame e s).idx = s.idx := rfl
@[simp] theorem endFrame_buf (e : Event) (s : State) : (endFrame e s).buf = s.buf := rfl
@[simp] theorem endFrame_events (e : Event) (s : State) : (endFrame e s).events = s.events ++ [e] := rfl
@[simp] theorem endFrame_txData (e : Event) (s : State) : (endFrame e s).txData = s.txData := rfl
@[simp] theorem endFrame_encErr (e : Event) (s : State) : (endFrame e s).encErr = s.encErr := rfl
@[simp] theorem endFrame_inputs (e : Event) (s : State) : (endFrame e s).inputs = s.inputs := rfl
@[simp] theorem endFrame_resets (e : Event) (s : State) : (endFrame e s).resets = s.resets := rfl

/-! ### `clearOutputs` -/

@[simp] theorem clearOutputs_crcAcc (s : State) : (clearOutputs s).crcAcc = s.crcAcc := rfl
@[simp] theorem clearOutputs_st (s : State) : (clearOutputs s).st = s.st := rfl
@[simp] theorem clearOutputs_typ (s : State) : (clearOutputs s).typ = s.typ := rfl
@[simp] theorem clearOutputs_len (s : State) : (clearOutputs s).len = s.len := rfl
@[simp] theorem clearOutputs_crcRx (s : State) : (clearOutputs s).crcRx = s.crcRx := rfl
@[simp] theorem clearOutputs_idx (s : State) : (clearOutputs s).idx = s.idx := rfl
@[simp] theorem clearOutputs_buf (s : State) : (clearOutputs s).buf = s.buf := rfl
@[simp] theorem clearOutputs_events (s : State) : (clearOutputs s).events = [] := rfl
@[simp] theorem clearOutputs_txData (s : State) : (clearOutputs s).txData = [] := rfl
@[simp] theorem clearOutputs_encErr (s : State) : (clearOutputs s).encErr = false := rfl
@[simp] theorem clearOutputs_inputs (s : State) : (clearOutputs s).inputs = s.inputs := rfl
@[simp] theorem clearOutputs_resets (s : State) : (clearOutputs s).resets = s.resets := rfl

/-! ### `applyReset` -/

@[simp] theorem applyReset_crcAcc (p : Params) (s : State) : (applyReset p s).crcAcc = p.crcSeedDefault := rfl
@[simp] theorem applyReset_st (p : Params) (s : State) : (applyReset p s).st = .start := rfl
@[simp] theorem applyReset_typ (p : Params) (s : State) : (applyReset p s).typ = Config.typAfterReset s.resets s.typ := rfl
@[simp] theorem applyReset_len (p : Params) (s : State) : (applyReset p s).len = Config.lenAfterReset s.resets s.len := rfl
@[simp] theorem applyReset_crcRx (p : Params) (s : State) : (applyReset p s).crcRx = Config.crcRxAfterReset s.resets s.crcRx := rfl
@[simp] theorem applyReset_idx (p : Params) (s : State) : (applyReset p s).idx = Config.idxAfterReset s.resets s.idx := rfl
@[simp] theorem applyReset_buf (p : Params) (s : State) : (applyReset p s).buf = Memory.afterReset s.resets s.buf := rfl
@[simp] theorem applyReset_events (p : Params) (s : State) : (applyReset p s).events = [] := rfl
@[simp] theorem applyReset_txData (p : Params) (s : State) : (applyReset p s).txData = [] := rfl
@[simp] theorem applyReset_encErr (p : Params) (s : State) : (applyReset p s).encErr = false := rfl
@[simp] theorem applyReset_inputs (p : Params) (s : State) : (applyReset p s).inputs = s.inputs := rfl
@[simp] theorem applyReset_resets (p : Params) (s : State) : (applyReset p s).resets = s.resets + 1 := rfl

/-! ### `setTx` -/

@[simp] theorem setTx_some (bytes : List Byte) (s : State) :
    setTx (some bytes) s = { s with txData := bytes, encErr := false } := rfl
@[simp] theorem setTx_none (s : State) : setTx none s = { s with txData := [], encErr := true } := rfl
@[simp] theorem setTx_crcAcc (r : Option (List Byte)) (s : State) : (setTx r s).crcAcc = s.crcAcc := by cases r <;> rfl
@[simp] theorem setTx_st (r : Option (List Byte)) (s : State) : (setTx r s).st = s.st := by cases r <;> rfl
@[simp] theorem setTx_typ (r : Option (List Byte)) (s : State) : (setTx r s).typ = s.typ := by cases r <;> rfl
@[simp] theorem setTx_len (r : Option (List Byte)) (s : State) : (setTx r s).len = s.len := by cases r <;> rfl
@[simp] theorem setTx_crcRx (r : Option (List Byte)) (s : State) : (setTx r s).crcRx = s.crcRx := by cases r <;> rfl
@[simp] theorem setTx_idx (r : Option (List Byte)) (s : State) : (setTx r s).idx = s.idx := by cases r <;> rfl
@[simp] theorem setTx_buf (r : Option (List Byte)) (s : State) : (setTx r s).buf = s.buf := by cases r <;> rfl
@[simp] theorem setTx_events (r : Option (List Byte)) (s : State) : (setTx r s).events = s.events := by cases r <;> rfl
@[simp] theorem setTx_inputs (r : Option (List Byte)) (s : State) : (setTx r s).inputs = s.inputs := by cases r <;> rfl
@[simp] theorem setTx_resets (r : Option (List Byte)) (s : State) : (setTx r s).resets = s.resets := by cases r <;> rfl

/-! ### The state after reset -/

@[simp] theorem reset_crcAcc : State.reset.crcAcc = 0#16 := rfl
@[simp] theorem reset_st : State.reset.st = .start := rfl
@[simp] theorem reset_buf : State.reset.buf = [] := rfl
@[simp] theorem reset_events : State.reset.events = [] := rfl
@[simp] theorem reset_txData : State.reset.txData = [] := rfl
@[simp] theorem reset_encErr : State.reset.encErr = false := rfl
@[simp] theorem reset_inputs : State.reset.inputs = [] := rfl

end Sys2Proof.Machine
end

