-- ==== Sys2Proof/Laws/Ops.lean ====
section
/-! SUPPORT. Laws/Ops.lean: what the shared operations can do. -/

namespace Sys2Proof.Machine

/-! ### Sequencing -/

@[simp] theorem andThen_next (s : State) (f : State → Result) : andThen (.next s) f = f s := rfl
@[simp] theorem andThen_fault (r : Fault) (f : State → Result) : andThen (.fault r) f = .fault r := rfl
@[simp] theorem andThen_refused (r : Refusal) (f : State → Result) : andThen (.refused r) f = .refused r := rfl

theorem andThen_eq_next {r : Result} {f : State → Result} {t : State} :
    andThen r f = .next t ↔ ∃ s, r = .next s ∧ f s = .next t := by
  cases r <;> simp [andThen]

theorem andThen_assoc (r : Result) (f g : State → Result) :
    andThen (andThen r f) g = andThen r fun s => andThen (f s) g := by
  cases r <;> rfl

/-! ### The buffer -/

/-- Reading depends on the buffer and on the number of resets alone. -/
theorem bufByte_congr {s t : State} (hb : t.buf = s.buf) (hr : t.resets = s.resets) (i : Nat) :
    bufByte t i = bufByte s i := by simp [bufByte, hb, hr]

theorem bufByte_put_same (s : State) (i : Nat) (v : Byte) : bufByte { s with buf := Memory.put i v s.buf } i = v := by
  simp [bufByte, find_put_same]

theorem bufByte_put_other (s : State) {i a : Nat} (h : a ≠ i) (v : Byte) :
    bufByte { s with buf := Memory.put i v s.buf } a = bufByte s a := by
  simp [bufByte, find_put_other h]

/-- Two states that read alike below `n` have the same slice. -/
theorem bufSlice_congr {s t : State} {n : Nat} (h : ∀ i < n, bufByte s i = bufByte t i) : bufSlice s n = bufSlice t n :=
  List.map_congr_left fun i hi => h i (List.mem_range.mp hi)

@[simp] theorem bufSlice_length (s : State) (n : Nat) : (bufSlice s n).length = n := by simp [bufSlice]

theorem bufSlice_succ (s : State) (n : Nat) : bufSlice s (n + 1) = bufSlice s n ++ [bufByte s n] := by
  simp [bufSlice, List.range_succ]

@[simp] theorem bufSlice_emit (e : Event) (s : State) (n : Nat) : bufSlice (emit e s) n = bufSlice s n := rfl
@[simp] theorem bufSlice_endFrame (e : Event) (s : State) (n : Nat) : bufSlice (endFrame e s) n = bufSlice s n := rfl

@[simp] theorem bufByte_emit (e : Event) (s : State) (i : Nat) : bufByte (emit e s) i = bufByte s i := rfl
@[simp] theorem bufByte_endFrame (e : Event) (s : State) (i : Nat) : bufByte (endFrame e s) i = bufByte s i := rfl
@[simp] theorem bufByte_clearOutputs (s : State) (i : Nat) : bufByte (clearOutputs s) i = bufByte s i := rfl

/-- All that BufWrite can do: inside the buffer it lists the byte, outside it is a fault. -/
theorem bufWrite_cases (p : Params) (i : Nat) (v : Byte) (s : State) :
    (i < p.bufSize ∧ bufWrite p i v s = .ok { s with buf := Memory.put i v s.buf }) ∨
    (p.bufSize ≤ i ∧ bufWrite p i v s = .error .bufferIndex) := by
  by_cases h : i < p.bufSize
  · exact .inl ⟨h, by simp [bufWrite, h]⟩
  · exact .inr ⟨by omega, by simp [bufWrite, h]⟩

/-- All that reading the first `n` bytes can do. -/
theorem bufPrefix_cases (p : Params) (s : State) (n : Nat) :
    (n ≤ p.bufSize ∧ bufPrefix p s n = .ok (bufSlice s n)) ∨
    (p.bufSize < n ∧ bufPrefix p s n = .error .bufferIndex) := by
  by_cases h : n ≤ p.bufSize
  · exact .inl ⟨h, by simp [bufPrefix, h]⟩
  · exact .inr ⟨by omega, by simp [bufPrefix, h]⟩

theorem bufPrefix_ok {p : Params} (s : State) {n : Nat} (h : n ≤ p.bufSize) :
    bufPrefix p s n = .ok (bufSlice s n) := by simp [bufPrefix, h]

end Sys2Proof.Machine
end

