-- ==== Sys2Proof/Laws/Parser.lean ====
section
/-! SUPPORT. Laws/Parser.lean: what DEC.BYTE and a run of bytes can do (41_decoder_fsm.md R120 to R134). -/

namespace Sys2Proof.Machine

variable {p : Params} {b : Byte} {s t : State}

/-! ### DEC.BYTE by state -/

theorem decByte_start (h : s.st = .start) : decByte p b s = decStart p b s := by simp [decByte, h]
theorem decByte_type (h : s.st = .type) : decByte p b s = decType p b s := by simp [decByte, h]
theorem decByte_lenLow (h : s.st = .lenLow) : decByte p b s = decLenLow b s := by simp [decByte, h]
theorem decByte_lenHigh (h : s.st = .lenHigh) : decByte p b s = decLenHigh p b s := by simp [decByte, h]
theorem decByte_crcLow (h : s.st = .crcLow) : decByte p b s = decCrcLow b s := by simp [decByte, h]
theorem decByte_crcHigh (h : s.st = .crcHigh) : decByte p b s = decCrcHigh p b s := by simp [decByte, h]
theorem decByte_data (h : s.st = .data) : decByte p b s = decData p b s := by simp [decByte, h]
theorem decByte_done (h : s.st = .done) : decByte p b s = .refused .parserInDone := by simp [decByte, h]

/-! ### Evaluation -/

/-- All the evaluation at Done can do when it answers a next state (R132). -/
theorem evaluate_next (h : evaluate p s = .next t) : t = endFrame .rx s ∨ t = endFrame .rxErrorCrc s := by
  unfold evaluate at h
  split at h
  · exact .inl (by simpa using h.symm)
  · exact .inr (by simpa using h.symm)
  · simp at h

/-- The evaluation of a CMD or DATA frame whose length is inside the buffer (R132). -/
theorem evaluate_framed {k : FrameKind} (hk : frameKind p s.typ = some k) (hf : k = .cmd ∨ k = .data)
    (hl : s.len.toNat ≤ p.bufSize) :
    evaluate p s =
      .next (endFrame (if framedCrc p s.typ s.len (bufSlice s s.len.toNat) = s.crcRx then .rx
        else .rxErrorCrc) s) := by
  rcases hf with rfl | rfl <;>
  · by_cases hc : framedCrc p s.typ s.len (bufSlice s s.len.toNat) = s.crcRx
    · simp [evaluate, frameOk, hk, bufPrefix_ok s hl, Except.map, hc]
    · simp [evaluate, frameOk, hk, bufPrefix_ok s hl, Except.map, hc, beq_eq_false_iff_ne.mpr hc]

/-- The evaluation of a PING_RSP frame (R132). -/
theorem evaluate_pingRsp (hk : frameKind p s.typ = some .pingRsp) (hl : p.pingRspBodyLen ≤ p.bufSize) :
    evaluate p s =
      .next (endFrame (if pingRspCrc p (bufSlice s p.pingRspBodyLen) =
        pingRspRxCrc p (bufSlice s p.pingRspBodyLen) then .rx else .rxErrorCrc) s) := by
  by_cases hc : pingRspCrc p (bufSlice s p.pingRspBodyLen) =
      pingRspRxCrc p (bufSlice s p.pingRspBodyLen)
  · simp [evaluate, frameOk, hk, bufPrefix_ok s hl, Except.map, hc]
  · simp [evaluate, frameOk, hk, bufPrefix_ok s hl, Except.map, hc, beq_eq_false_iff_ne.mpr hc]

/-- The evaluation of a bare frame (R123, R132). -/
theorem evaluate_bare {k : FrameKind} (hk : frameKind p s.typ = some k) (hf : k.format = .bare) :
    evaluate p s = .next (endFrame .rx s) := by
  cases k <;> simp [FrameKind.format] at hf <;> simp [evaluate, frameOk, hk]

/-! ### One inversion lemma for DEC.BYTE: the rows of R134 -/

/-- How a DEC.BYTE that answers a next state went: the rows of the transition table (R134), with what each wrote. -/
inductive DecRow (p : Params) (b : Byte) (s t : State) : Prop where
  | marker (hs : s.st = .start) (hb : b = p.startByte) (ht : t = emit .noEvent { s with st := .type })
  | discard (hs : s.st = .start) (hb : b ≠ p.startByte) (ht : t = emit .noEvent s)
  | bare (hs : s.st = .type) (k : FrameKind) (hk : frameKind p b = some k) (hf : k.format = .bare)
      (ht : t = endFrame .rx { s with typ := b, st := .done })
  | pingRsp (hs : s.st = .type) (hk : frameKind p b = some .pingRsp)
      (ht : t = emit .noEvent { s with typ := b, idx := 0#16, st := .data })
  | framed (hs : s.st = .type) (k : FrameKind) (hk : frameKind p b = some k) (hf : k = .cmd ∨ k = .data)
      (ht : t = emit .noEvent { s with typ := b, st := .lenLow })
  | badType (hs : s.st = .type) (hk : frameKind p b = none) (ht : t = endFrame .rxErrorType { s with typ := b })
  | lenLow (hs : s.st = .lenLow) (ht : t = emit .noEvent { s with len := zext16 b, st := .lenHigh })
  | lenHigh (hs : s.st = .lenHigh) (m : Nat) (hm : maxLen p s.typ = some m) (hl : (le16 (lo s.len) b).toNat ≤ m)
      (ht : t = emit .noEvent { s with len := le16 (lo s.len) b, st := .crcLow })
  | badLen (hs : s.st = .lenHigh) (m : Nat) (hm : maxLen p s.typ = some m) (hl : m < (le16 (lo s.len) b).toNat)
      (ht : t = endFrame .rxErrorLen { s with len := le16 (lo s.len) b })
  | crcLow (hs : s.st = .crcLow) (ht : t = emit .noEvent { s with crcRx := zext16 b, st := .crcHigh })
  | crcHigh (hs : s.st = .crcHigh) (hl : s.len ≠ 0#16)
      (ht : t = emit .noEvent { s with crcRx := le16 (lo s.crcRx) b, idx := 0#16, st := .data })
  | empty (hs : s.st = .crcHigh) (hl : s.len = 0#16)
      (he : evaluate p { s with crcRx := le16 (lo s.crcRx) b, idx := 0#16, st := .done } = .next t)
  | body (hs : s.st = .data) (n : Nat) (hn : need p s.typ s.len = some n) (hi : s.idx.toNat < p.bufSize)
      (hlast : s.idx.toNat + 1 ≠ n)
      (ht : t = emit .noEvent { s with buf := Memory.put s.idx.toNat b s.buf, idx := s.idx + 1#16 })
  | last (hs : s.st = .data) (n : Nat) (hn : need p s.typ s.len = some n) (hi : s.idx.toNat < p.bufSize)
      (hlast : s.idx.toNat + 1 = n)
      (he : evaluate p { s with buf := Memory.put s.idx.toNat b s.buf, idx := s.idx + 1#16, st := .done } = .next t)

/-- The type map splits into the three formats and the unrecognized bytes. -/
theorem decType_row (hs : s.st = .type) (h : decType p b s = .next t) : DecRow p b s t := by
  cases hk : frameKind p b with
  | none => exact .badType hs hk (by simpa [decType, hk] using h.symm)
  | some k =>
    cases hf : k.format with
    | bare =>
      have he : evaluate p { s with typ := b, st := .done } = .next t := by simpa [decType, hk, hf] using h
      rw [evaluate_bare (s := { s with typ := b, st := .done }) hk hf] at he
      exact .bare hs k hk hf (by simpa using he.symm)
    | framed =>
      refine .framed hs k hk ?_ (by simpa [decType, hk, hf] using h.symm)
      cases k <;> simp [FrameKind.format] at hf <;> simp
    | pingRsp =>
      have : k = .pingRsp := by
        cases k <;> simp [FrameKind.format] at hf
        rfl
      subst this
      exact .pingRsp hs hk (by simpa [decType, hk, hf] using h.symm)

theorem decData_row (hs : s.st = .data) (h : decData p b s = .next t) : DecRow p b s t := by
  cases hn : need p s.typ s.len with
  | none => simp [decData, hn] at h
  | some n =>
    rcases bufWrite_cases p s.idx.toNat b s with ⟨hi, hw⟩ | ⟨-, hw⟩
    · by_cases hl : s.idx.toNat + 1 = n
      · exact .last hs n hn hi hl (by simpa [decData, hn, hw, hl] using h)
      · exact .body hs n hn hi hl (by simpa [decData, hn, hw, hl] using h.symm)
    · simp [decData, hn, hw] at h

/-- Everything a DEC.BYTE can do. -/
theorem decByte_row (h : decByte p b s = .next t) : DecRow p b s t := by
  cases hs : s.st with
  | start =>
    rw [decByte_start hs] at h
    by_cases hb : b = p.startByte
    · exact .marker hs hb (by simpa [decStart, hb] using h.symm)
    · exact .discard hs hb (by simpa [decStart, hb] using h.symm)
  | type => rw [decByte_type hs] at h; exact decType_row hs h
  | lenLow => rw [decByte_lenLow hs] at h; exact .lenLow hs (by simpa [decLenLow] using h.symm)
  | lenHigh =>
    rw [decByte_lenHigh hs] at h
    cases hm : maxLen p s.typ with
    | none => simp [decLenHigh, hm] at h
    | some m =>
      by_cases hl : m < (le16 (lo s.len) b).toNat
      · exact .badLen hs m hm hl (by simpa [decLenHigh, hm, hl] using h.symm)
      · exact .lenHigh hs m hm (by omega) (by simpa [decLenHigh, hm, hl] using h.symm)
  | crcLow => rw [decByte_crcLow hs] at h; exact .crcLow hs (by simpa [decCrcLow] using h.symm)
  | crcHigh =>
    rw [decByte_crcHigh hs] at h
    by_cases hl : s.len = 0#16
    · exact .empty hs hl (by simpa [decCrcHigh, hl] using h)
    · exact .crcHigh hs hl (by simpa [decCrcHigh, hl] using h.symm)
  | data => rw [decByte_data hs] at h; exact decData_row hs h
  | done => simp [decByte_done hs] at h

/-! ### Runs of bytes -/

@[simp] theorem feed_nil (p : Params) (s : State) : feed p [] s = .next s := rfl

theorem feed_cons (p : Params) (b : Byte) (bs : List Byte) (s : State) :
    feed p (b :: bs) s = andThen (decByte p b s) (feed p bs) := rfl

/-- Bytes fed in two runs are the bytes fed in one. -/
theorem feed_append (p : Params) : ∀ (xs ys : List Byte) (s : State),
    feed p (xs ++ ys) s = andThen (feed p xs s) (feed p ys)
  | [], _, _ => rfl
  | x :: xs, ys, s => by
    simp only [List.cons_append, feed_cons, andThen_assoc]
    congr 1
    funext u
    exact feed_append p xs ys u

/-- A property that every DEC.BYTE keeps, every run of bytes keeps. -/
theorem feed_keeps {P : State → Prop} (hstep : ∀ (b : Byte) (s t : State), P s → decByte p b s = .next t → P t) :
    ∀ {bs : List Byte} {s t : State}, P s → feed p bs s = .next t → P t
  | [], _, _, hs, h => by simp at h; exact h ▸ hs
  | b :: bs, s, t, hs, h => by
    obtain ⟨u, hu, ht⟩ := andThen_eq_next.mp (feed_cons p b bs s ▸ h)
    exact feed_keeps hstep (hstep b s u hs hu) ht

end Sys2Proof.Machine
end

