-- ==== Sys2Proof/Laws/Body.lean ====
section
/-! SUPPORT. Laws/Body.lean: a whole body, and a whole frame from Start, through DEC.BYTE (41_decoder_fsm.md R130;
42_frame_types.md R153, R154, R156). -/

namespace Sys2Proof.Machine

/-- The buffer after a run of bytes has been stored from index `k` on. -/
def Memory.putAll : Nat → List Byte → List Host.Cell → List Host.Cell
  | _, [], m => m
  | k, b :: bs, m => Memory.putAll (k + 1) bs (Memory.put k b m)

open Memory

theorem find_putAll_outside : ∀ (bs : List Byte) (k a : Nat) (m : List Host.Cell),
    (a < k ∨ k + bs.length ≤ a) → find a (putAll k bs m) = find a m
  | [], _, _, _, _ => rfl
  | b :: bs, k, a, m, h => by
    rw [putAll, find_putAll_outside bs (k + 1) a _ (by simp at h; omega), find_put_other (by simp at h; omega)]

theorem find_putAll_inside : ∀ (bs : List Byte) (k i : Nat) (m : List Host.Cell) (h : i < bs.length),
    find (k + i) (putAll k bs m) = some bs[i]
  | b :: bs, k, 0, m, _ => by
    rw [putAll, find_putAll_outside bs (k + 1) _ _ (by omega)]
    simp [find_put_same]
  | b :: bs, k, i + 1, m, h => by
    have := find_putAll_inside bs (k + 1) i (put k b m) (by simpa using h)
    rw [show k + (i + 1) = k + 1 + i by omega, putAll, this]
    simp

theorem putAll_append : ∀ (xs ys : List Byte) (k : Nat) (m : List Host.Cell),
    putAll k (xs ++ ys) m = putAll (k + xs.length) ys (putAll k xs m)
  | [], ys, k, m => by simp [putAll]
  | x :: xs, ys, k, m => by
    simp only [List.cons_append, putAll, putAll_append xs ys]
    congr 1
    simp; omega

/-- A body stored from index 0 on reads back whole. -/
theorem bufSlice_putAll (s : State) {t : State} (body : List Byte) (h : t.buf = putAll 0 body s.buf) :
    bufSlice t body.length = body := by
  apply List.ext_getElem (by simp)
  intro i hi _
  have hb : i < body.length := by simpa using hi
  have := find_putAll_inside body 0 i s.buf hb
  simp only [Nat.zero_add] at this
  simp [bufSlice, bufByte, h, this]

/-- Beyond the body the buffer reads as before. -/
theorem bufByte_putAll_beyond {s t : State} (body : List Byte) (h : t.buf = putAll 0 body s.buf)
    (hr : t.resets = s.resets) {a : Nat} (ha : body.length ≤ a) : bufByte t a = bufByte s a := by
  simp [bufByte, h, hr, find_putAll_outside body 0 a s.buf (by omega)]

/-- Body bytes before the last one: each is stored and counted, with event None (R130). -/
theorem feed_body (p : Params) (n : Nat) : ∀ (bs : List Byte) (s : State), s.st = .data → need p s.typ s.len = some n →
    s.idx.toNat + bs.length < n → n ≤ p.bufSize → n < 2 ^ 16 →
    feed p bs s = .next { s with
      buf := putAll s.idx.toNat bs s.buf, idx := s.idx + BitVec.ofNat 16 bs.length,
      events := s.events ++ List.replicate bs.length .noEvent }
  | [], s, _, _, _, _, _ => by simp [putAll]
  | b :: bs, s, h, hn, hl, hb, h16 => by
    simp only [List.length_cons] at hl
    have hs : (s.idx + 1#16).toNat = s.idx.toNat + 1 := by
      rw [BitVec.toNat_add]; simp; omega
    rw [feed_cons, decByte_data h]
    simp only [decData, hn, bufWrite, show s.idx.toNat < p.bufSize by omega, if_true,
      show ¬ s.idx.toNat + 1 = n by omega, if_false, andThen_next]
    rw [feed_body p n bs _ (by simpa using h) (by simpa using hn) (by simp only [emit_idx]; rw [hs]; omega) hb h16]
    simp only [emit_idx, hs, emit_buf, putAll, emit_events]
    simp [emit, List.replicate_succ, BitVec.add_assoc]
    rw [Nat.add_comm, BitVec.ofNat_add]

/-- The whole body from index 0: the frame is evaluated with every body byte stored (R130, R132). -/
theorem feed_whole_body (p : Params) (body : List Byte) (s : State) (h : s.st = .data) (hi : s.idx = 0#16)
    (hn : need p s.typ s.len = some body.length) (hb : body.length ≤ p.bufSize) (h16 : body.length < 2 ^ 16)
    (hne : body ≠ []) :
    feed p body s = evaluate p { s with
      buf := putAll 0 body s.buf, idx := BitVec.ofNat 16 body.length, st := .done,
      events := s.events ++ List.replicate (body.length - 1) .noEvent } := by
  obtain ⟨front, last, rfl⟩ : ∃ front last, body = front ++ [last] :=
    ⟨body.dropLast, body.getLast hne, (List.dropLast_append_getLast hne).symm⟩
  simp only [List.length_append, List.length_singleton] at hn hb h16 ⊢
  rw [feed_append, feed_body p (front.length + 1) front s h hn (by simp [hi]) hb h16]
  simp only [andThen_next, feed_cons]
  rw [decByte_data (by exact h)]
  have e : (s.idx + BitVec.ofNat 16 front.length).toNat = front.length := by
    simp [hi]; omega
  have hnil : ∀ r : Result, andThen r (feed p []) = r := by intro r; cases r <;> rfl
  simp only [decData, hn, bufWrite, e, show front.length < p.bufSize by omega, if_true, hnil]
  simp [putAll_append, putAll, hi, BitVec.ofNat_add]

/-- A CMD or DATA frame within its limit, from Start, byte by byte: every register, the buffer and the events
(R153, R154). -/
theorem feed_framedFrame {typ : Byte} {m : Nat} (hm : maxLen Params.hardware typ = some m) (crc : U16)
    (body : List Byte) (s : State) (h : s.st = .start) (hl : body.length ≤ m) :
    feed Params.hardware (framedFrame Params.hardware typ crc body) s = .next { s with
      typ := typ, len := lenField body, crcRx := crc, idx := lenField body, buf := putAll 0 body s.buf, st := .start,
      events := s.events ++ List.replicate (5 + body.length) .noEvent ++
        [if framedCrc Params.hardware typ (lenField body) body = crc then .rx else .rxErrorCrc] } := by
  obtain ⟨k, hk, hf, hmb⟩ : ∃ k, frameKind Params.hardware typ = some k ∧ (k = .cmd ∨ k = .data) ∧ m ≤ 256 := by
    unfold maxLen at hm
    split at hm <;> simp at hm <;> rename_i hk <;> exact ⟨_, hk, by simp, by omega⟩
  have hft : (frameKind Params.hardware typ).map FrameKind.format = some .framed := by
    rcases hf with rfl | rfl <;> simp [hk, FrameKind.format]
  have hL := lenField_toNat (body := body) (by omega)
  rw [framedFrame_hardware]
  simp only [List.cons_append, List.nil_append]
  rw [feed_cons, decByte_start h]
  simp only [decStart, Params.hardware_startByte, if_true, andThen_next]
  rw [feed_cons, decByte_type rfl]
  simp only [decType, hft, andThen_next]
  rw [feed_cons, decByte_lenLow rfl]
  simp only [decLenLow, andThen_next]
  rw [feed_cons, decByte_lenHigh rfl]
  simp only [decLenHigh, emit_typ, hm, emit_len, lo_zext16, le16_lo_hi, hL, show ¬ m < body.length by omega, if_false,
    andThen_next]
  rw [feed_cons, decByte_crcLow rfl]
  simp only [decCrcLow, andThen_next]
  rw [feed_cons, decByte_crcHigh rfl]
  simp only [decCrcHigh, emit_len, emit_crcRx, lo_zext16, le16_lo_hi]
  cases hb : body with
  | nil =>
    subst hb
    rw [if_pos (by rfl), evaluate_framed (k := k) (by simpa using hk) hf (by simp [lenField]), andThen_next]
    simp [endFrame, emit, putAll, bufSlice, lenField]
    rfl
  | cons b0 bs =>
    rw [← hb]
    have hne : body ≠ [] := by simp [hb]
    have h0 : lenField body ≠ 0#16 := by
      intro h0
      have h1 := congrArg BitVec.toNat h0
      rw [hL] at h1
      exact hne (List.length_eq_zero_iff.mp (by simpa using h1))
    rw [if_neg h0, andThen_next, feed_whole_body Params.hardware body _ (by rfl) (by rfl)
      (by rcases hf with rfl | rfl <;> simp [need, hk, hL]) (by simp; omega) (by omega) hne]
    rw [evaluate_framed (k := k) (by simpa using hk) hf (by simp [hL]; omega)]
    have hs : ∀ t : State, t.buf = putAll 0 body s.buf → bufSlice t body.length = body :=
      fun t ht => bufSlice_putAll s body ht
    have hn1 : List.replicate (5 + body.length) Event.noEvent =
        .noEvent :: .noEvent :: .noEvent :: .noEvent :: .noEvent :: .noEvent ::
          List.replicate (body.length - 1) .noEvent := by
      have : 5 + body.length = body.length - 1 + 6 := by rw [hb]; simp; omega
      rw [this]; rfl
    simp [endFrame, emit, hL, hn1, hs]
    rfl

/-- A PING_RSP frame from Start, byte by byte (R156). -/
theorem feed_pingRspFrame (body : List Byte) (s : State) (h : s.st = .start) (hl : body.length = 8) :
    feed Params.hardware (pingRspFrame Params.hardware body) s = .next { s with
      typ := 0xA7#8, idx := 8#16, buf := putAll 0 body s.buf, st := .start,
      events := s.events ++ List.replicate 9 .noEvent ++
        [if pingRspCrc Params.hardware body = pingRspRxCrc Params.hardware body then .rx else .rxErrorCrc] } := by
  rw [pingRspFrame_hardware]
  rw [feed_cons, decByte_start h]
  simp only [decStart, Params.hardware_startByte, if_true, andThen_next]
  rw [feed_cons, decByte_type rfl]
  simp only [decType, frameKind_pingRsp, Option.map_some, FrameKind.format, andThen_next]
  have hne : body ≠ [] := by intro hb; simp [hb] at hl
  rw [feed_whole_body Params.hardware body _ (by rfl) (by rfl) (by simp [need, hl]) (by simp [hl]) (by simp [hl]) hne,
    evaluate_pingRsp (by simp) (by simp)]
  have hs : ∀ t : State, t.buf = putAll 0 body s.buf → bufSlice t 8 = body := by
    intro t ht
    have := bufSlice_putAll s body ht
    rwa [hl] at this
  simp [endFrame, emit, hl, hs]

end Sys2Proof.Machine
end

