-- ==== Sys2Proof/Laws/Crc.lean ====
section
/-! SUPPORT. Laws/Crc.lean: the byte step of the CRC is linear and loses nothing (40_crc16.md R100, R105). -/

namespace Sys2Proof.Machine

@[simp] theorem crc16_nil (p : Params) (seed : U16) : crc16 p [] seed = seed := rfl

@[simp] theorem crc16_cons (p : Params) (b : Byte) (bs : List Byte) (seed : U16) :
    crc16 p (b :: bs) seed = crc16 p bs (crc16Step p seed b) := rfl

theorem zext16_xor (a b : Byte) : zext16 (a ^^^ b) = zext16 a ^^^ zext16 b := by
  ext i h
  by_cases h8 : i < 8 <;> simp [zext16, h8]

/-- One shift is linear over exclusive-or. -/
theorem crcShift_xor (p : Params) (r r' : U16) : crcShift p (r ^^^ r') = crcShift p r ^^^ crcShift p r' := by
  unfold crcShift
  rw [BitVec.msb_xor, BitVec.shiftLeft_xor_distrib]
  cases r.msb <;> cases r'.msb <;> simp
  · rw [BitVec.xor_assoc]
  · rw [BitVec.xor_assoc, BitVec.xor_comm (r' <<< 1), ← BitVec.xor_assoc]
  · rw [BitVec.xor_assoc, BitVec.xor_comm p.crcPoly, BitVec.xor_assoc, BitVec.xor_self, BitVec.xor_zero]

theorem crcShifts_xor (p : Params) (n : Nat) :
    ∀ r r' : U16, crcShifts p n (r ^^^ r') = crcShifts p n r ^^^ crcShifts p n r' := by
  induction n with
  | zero => intro r r'; rfl
  | succ n ih => intro r r'; simp only [crcShifts, crcShift_xor, ih]

/-- The byte step is linear over exclusive-or in both operands. -/
theorem crc16Step_xor (p : Params) (c c' : U16) (b b' : Byte) :
    crc16Step p (c ^^^ c') (b ^^^ b') = crc16Step p c b ^^^ crc16Step p c' b' := by
  unfold crc16Step
  rw [← crcShifts_xor, zext16_xor, BitVec.shiftLeft_xor_distrib]
  congr 1
  ext i h
  simp [Bool.xor_left_comm]

/-- With a polynomial whose constant term is 1 a shift loses nothing: bit 0 of the result tells whether the polynomial
was added, so the value before the shift can be recovered. -/
theorem crcShift_eq_zero {p : Params} (hp : p.crcPoly[0] = true) {r : U16} (h : crcShift p r = 0) : r = 0 := by
  have hm : r.msb = false := by
    cases hr : r.msb
    · rfl
    · have h0 := congrArg (fun v : U16 => v[0]) h
      simp [crcShift, hr, hp] at h0
  have hs : r <<< 1 = 0 := by simpa [crcShift, hm] using h
  ext i hi
  by_cases h15 : i = 15
  · subst h15; simpa [BitVec.msb_eq_getLsbD_last] using hm
  · have hb := congrArg (fun v : U16 => v.getLsbD (i + 1)) hs
    simp only [BitVec.getLsbD_shiftLeft] at hb
    simpa [show i + 1 < 16 by omega, BitVec.getLsbD_eq_getElem hi] using hb

theorem crcShifts_eq_zero {p : Params} (hp : p.crcPoly[0] = true) (n : Nat) :
    ∀ {r : U16}, crcShifts p n r = 0 → r = 0 := by
  induction n with
  | zero => intro r h; exact h
  | succ n ih => intro r h; exact crcShift_eq_zero hp (ih h)

theorem crcShifts_inj {p : Params} (hp : p.crcPoly[0] = true) (n : Nat) {r r' : U16}
    (h : crcShifts p n r = crcShifts p n r') : r = r' := by
  have h0 : crcShifts p n (r ^^^ r') = 0 := by rw [crcShifts_xor, h]; exact BitVec.xor_self
  exact BitVec.xor_eq_zero_iff.mp (crcShifts_eq_zero hp n h0)

/-- For one byte, different running values give different running values. -/
theorem crc16Step_inj_left {p : Params} (hp : p.crcPoly[0] = true) {c c' : U16} {b : Byte}
    (h : crc16Step p c b = crc16Step p c' b) : c = c' := by
  have h1 := crcShifts_inj hp 8 h
  simpa using h1

/-- For one running value, different bytes give different running values. -/
theorem crc16Step_inj_right {p : Params} (hp : p.crcPoly[0] = true) {c : U16} {b b' : Byte}
    (h : crc16Step p c b = crc16Step p c b') : b = b' := by
  have h1 := BitVec.xor_right_inj _ |>.mp (crcShifts_inj hp 8 h)
  have h2 := congrArg hi h1
  have e : ∀ x : Byte, hi (zext16 x <<< 8) = x := by
    intro x; ext i hlt; simp [hi, zext16, show 8 + i < 16 by omega, BitVec.getLsbD_eq_getElem hlt]
  simpa [e] using h2

/-- For one byte sequence, different seeds give different results. -/
theorem crc16_inj_seed {p : Params} (hp : p.crcPoly[0] = true) :
    ∀ {bs : List Byte} {u v : U16}, crc16 p bs u = crc16 p bs v → u = v
  | [], _, _, h => h
  | _ :: _, _, _, h => crc16Step_inj_left hp (crc16_inj_seed hp h)

/-- As long as no set bit reaches bit 15, the iterations are plain shifts. -/
theorem crcShifts_of_lt (p : Params) : ∀ (n k : Nat) (r : U16), r.toNat < 2 ^ k → k + n ≤ 16 → crcShifts p n r = r <<< n
  | 0, _, _, _, _ => by simp [crcShifts]
  | n + 1, k, r, h, hk => by
    have hr : r.msb = false := by
      rw [BitVec.msb_eq_false_iff_two_mul_lt]
      have : 2 ^ (k + 1) ≤ 2 ^ 16 := Nat.pow_le_pow_right (by omega) (by omega)
      omega
    have h2 : (r <<< 1).toNat < 2 ^ (k + 1) := by
      simp [BitVec.toNat_shiftLeft, Nat.shiftLeft_eq]
      have := Nat.mod_le (r.toNat * 2) 65536
      omega
    rw [crcShifts, crcShift, hr]
    simp only [Bool.false_eq_true, if_false]
    rw [crcShifts_of_lt p n (k + 1) (r <<< 1) h2 (by omega), ← BitVec.shiftLeft_add]
    congr 1; omega

theorem hardware_crcPoly_odd : Params.hardware.crcPoly[0] = true := by decide

end Sys2Proof.Machine
end

