-- ==== Sys2Proof/Laws/PerInstr.lean ====
section
/-! SUPPORT. Laws/PerInstr.lean: statements made for every instruction, one lemma a constructor. -/

namespace Sys2Proof.Laws.TableMatch

/-- The "match" of an instruction's row in spec/opcode_table.json. -/
def rowMatch : Instr → Nat
  | .ack => 0x5AA1
  | .nak => 0x5AA2
  | .ackAbort => 0x5AA3
  | .cmd _ _ => 0x5AA4
  | .data _ _ => 0x5AA5
  | .ping => 0x5AA6
  | .pingRsp _ => 0x5AA7
  | .crcSeed _ => 0x1
  | .crcByte _ => 0x2
  | .decByte _ => 0x1
  | .decClear => 0x2
  | .encPing => 0x1
  | .encAck => 0x2
  | .encCmdrsp _ _ _ _ => 0x3
  | .encData _ _ => 0x4

/-- What the table matches over: frame bytes 0 and 1 with byte 0 in bits 15:8 (30_encoding.md R80), or the operation
code of the unit's port (R89). -/
def matchedPart : Encoded → Nat
  | .frame (b0 :: b1 :: _) => 256 * b0.toNat + b1.toNat
  | .frame _ => 0
  | .crc c => c.op.toNat
  | .dec d => d.op.toNat
  | .enc e => e.op.toNat

/-- The encoder lays down the match of the instruction's row. -/
def Statement (i : Instr) : Prop := matchedPart (encode Params.hardware i) = rowMatch i

theorem ack : Statement .ack := rfl
theorem nak : Statement .nak := rfl
theorem ackAbort : Statement .ackAbort := rfl
theorem cmd (crc : U16) (body : List Byte) : Statement (.cmd crc body) := rfl
theorem data (crc : U16) (payload : List Byte) : Statement (.data crc payload) := rfl
theorem ping : Statement .ping := rfl
theorem pingRsp (body : List Byte) : Statement (.pingRsp body) := rfl
theorem crcSeed (seed : U16) : Statement (.crcSeed seed) := rfl
theorem crcByte (b : Byte) : Statement (.crcByte b) := rfl
theorem decByte (b : Byte) : Statement (.decByte b) := rfl
theorem decClear : Statement .decClear := rfl
theorem encPing : Statement .encPing := rfl
theorem encAck : Statement .encAck := rfl
theorem encCmdrsp (tag flags : Byte) (n : BitVec 4) (params : List U32) : Statement (.encCmdrsp tag flags n params) := rfl
theorem encData (len : U16) (payload : List Byte) : Statement (.encData len payload) := rfl

end Sys2Proof.Laws.TableMatch
end

