-- ==== Sys2Proof/Laws/Step.lean ====
section
/-! SUPPORT. Laws/Step.lean: how a step takes what is presented next, and which unit an operation port selects
(30_encoding.md R89, R90; 20_memory.md R60). -/

namespace Sys2Proof.Machine

/-! ### What a step is, by what is presented next -/

theorem step_nothing {s : State} (h : s.inputs = []) : step s = .next (clearOutputs s) := by simp [step, runNext, h]

theorem step_edge {s : State} {e : Edge} {rest : List Presented} (h : s.inputs = .edge e :: rest) :
    step s = runEdge e { clearOutputs s with inputs := rest } := by simp [step, runNext, h]

theorem step_wire {s : State} {bytes : List Byte} {rest : List Presented} (h : s.inputs = .wire bytes :: rest) :
    step s = runWire bytes rest (clearOutputs s) := by simp [step, runNext, h]

theorem step_frame {s : State} {bytes : List Byte} {rest : List Presented} (h : s.inputs = .frame bytes :: rest) :
    step s = runFrame bytes rest (clearOutputs s) := by simp [step, runNext, h]

@[simp] theorem runUnit_ok (i : Instr) (s : State) : runUnit (.ok i) s = exec i s := rfl
@[simp] theorem runUnit_error (r : Reject) (s : State) : runUnit (.error r) s = .next s := rfl

theorem runEdge_rst {e : Edge} (h : e.rst = true) (s : State) : runEdge e s = .next (applyReset Params.hardware s) := by
  simp [runEdge, h]

theorem runEdge_ops {e : Edge} (h : e.rst = false) (s : State) :
    runEdge e s = andThen (runUnit (decodeCrc e.crc) s) fun s1 =>
      andThen (runUnit (decodeDec e.dec) s1) fun s2 => runUnit (decodeEnc Params.hardware e.enc) s2 := by
  simp [runEdge, h]

/-- One byte of the transport is one DEC.BYTE. -/
theorem runWire_cons (b : Byte) (bs : List Byte) (rest : List Presented) (s : State) :
    runWire (b :: bs) rest s = exec (.decByte b) { s with inputs := pushWire bs rest } := rfl

theorem runFrame_ok {bytes left : List Byte} {rest : List Presented} {s : State} {i : Instr}
    (h : decodeFrame Params.hardware bytes = .ok (i, left)) :
    runFrame bytes rest s = exec i { s with inputs := pushWire left rest } := by simp [runFrame, h]

theorem runFrame_error {bytes : List Byte} {rest : List Presented} {s : State} {r : Reject}
    (h : decodeFrame Params.hardware bytes = .error r) : runFrame bytes rest s = runWire bytes rest s := by
  simp [runFrame, h]

@[simp] theorem pushWire_nil (rest : List Presented) : pushWire [] rest = rest := rfl

theorem pushWire_of_ne_nil {bytes : List Byte} (h : bytes ≠ []) (rest : List Presented) :
    pushWire bytes rest = .wire bytes :: rest := by
  cases bytes with
  | nil => exact absurd rfl h
  | cons b bs => rfl

theorem andThen_pure (r : Result) : andThen r (fun s => .next s) = r := by cases r <;> rfl

/-! ### Each port selects an operation of its own unit -/

theorem unitOf_decodeCrc {c : CrcIn} {i : Instr} (h : decodeCrc c = .ok i) : unitOf i = .crcgen := by
  unfold decodeCrc at h
  split at h <;> simp at h <;> subst h <;> rfl

theorem unitOf_decodeDec {d : DecIn} {i : Instr} (h : decodeDec d = .ok i) : unitOf i = .dec := by
  unfold decodeDec at h
  split at h <;> simp at h <;> subst h <;> rfl

theorem unitOf_decodeEnc {p : Params} {e : EncIn} {i : Instr} (h : decodeEnc p e = .ok i) : unitOf i = .enc := by
  unfold decodeEnc at h
  split at h <;> simp at h <;> subst h <;> rfl

end Sys2Proof.Machine
end

