-- ==== Sys2Proof/Tests/Slice0.lean ====
section
/-! SUPPORT. Tests/Slice0.lean: smoke tests of `wellFormed`, decoding of words written out from the spec, one-step tests
with the results the spec's test vectors give (95_test_vectors.md, numbers V<n>), and for every statement with hypotheses
a concrete state and operands that meet them. -/

namespace Sys2Proof.Tests

open Sys2Proof Sys2Proof.Machine

/-- A small state: the parser in `st`, everything else zero or empty. -/
def blank (st : ParserState) : State where
  crcAcc := 0
  st := st
  typ := 0
  len := 0
  crcRx := 0
  idx := 0
  buf := []
  events := []
  txData := []
  encErr := false
  inputs := []
  resets := 1

/-- The result is a next state with the property. -/
def after (r : Result) (f : State → Bool) : Bool :=
  match r with
  | .next s => f s
  | .fault _ => false
  | .refused _ => false

/-! ### Ill-formed terms, one for each check -/

theorem smoke_cmd_body_of_33 : wellFormed Params.hardware (.cmd 0 (List.replicate 33 0)) = false := by decide +kernel
theorem smoke_data_payload_of_257 : wellFormed Params.hardware (.data 0 (List.replicate 257 0)) = false := by
  decide +kernel
theorem smoke_pingRsp_body_of_7 : wellFormed Params.hardware (.pingRsp (List.replicate 7 0)) = false := by decide
theorem smoke_pingRsp_body_of_9 : wellFormed Params.hardware (.pingRsp (List.replicate 9 0)) = false := by decide
theorem smoke_encCmdrsp_count : wellFormed Params.hardware (.encCmdrsp 0 0 2 [1]) = false := by decide
theorem smoke_encCmdrsp_refused_count : wellFormed Params.hardware (.encCmdrsp 0 0 8 [1]) = false := by decide
theorem smoke_encData_length : wellFormed Params.hardware (.encData 2 [0]) = false := by decide
theorem smoke_encData_refused_length : wellFormed Params.hardware (.encData 257 [0]) = false := by decide

/-! ### Decoding, one word for each constructor, bit by bit from R71 to R73 and R89 -/

theorem decode_ack : decodeFrame Params.hardware [0b01011010#8, 0b10100001#8] = .ok (.ack, []) := by decide
theorem decode_nak : decodeFrame Params.hardware [0b01011010#8, 0b10100010#8] = .ok (.nak, []) := by decide
theorem decode_ackAbort : decodeFrame Params.hardware [0b01011010#8, 0b10100011#8] = .ok (.ackAbort, []) := by decide
/-- The length and the CRC field low byte first: 0x0003, 0x71B3 (V76). -/
theorem decode_cmd :
    decodeFrame Params.hardware [0x5A#8, 0xA4#8, 0x03#8, 0x00#8, 0xB3#8, 0x71#8, 0x01#8, 0x02#8, 0x03#8] =
      .ok (.cmd 0x71B3#16 [0x01#8, 0x02#8, 0x03#8], []) := by decide
/-- The bytes after the frame are left (V80, then a PING). -/
theorem decode_data :
    decodeFrame Params.hardware [0x5A#8, 0xA5#8, 0x01#8, 0x00#8, 0x9F#8, 0x32#8, 0x00#8, 0x5A#8, 0xA6#8] =
      .ok (.data 0x329F#16 [0x00#8], [0x5A#8, 0xA6#8]) := by decide
theorem decode_ping : decodeFrame Params.hardware [0b01011010#8, 0b10100110#8] = .ok (.ping, []) := by decide
theorem decode_pingRsp :
    decodeFrame Params.hardware [0x5A#8, 0xA7#8, 1#8, 2#8, 3#8, 4#8, 5#8, 6#8, 7#8, 8#8] =
      .ok (.pingRsp [1#8, 2#8, 3#8, 4#8, 5#8, 6#8, 7#8, 8#8], []) := by decide
theorem decode_crcSeed : decodeCrc { op := 0b01#2, din := 0xFFFF#16 } = .ok (.crcSeed 0xFFFF#16) := by decide
theorem decode_crcByte : decodeCrc { op := 0b10#2, din := 0xAB31#16 } = .ok (.crcByte 0x31#8) := by decide
theorem decode_decByte : decodeDec { op := 0b01#2, rxByte := 0x5A#8 } = .ok (.decByte 0x5A#8) := by decide
theorem decode_decClear : decodeDec { op := 0b10#2, rxByte := 0x5A#8 } = .ok .decClear := by decide
theorem decode_encPing : decodeEnc Params.hardware { EncIn.nop with op := 0b001#3 } = .ok .encPing := by decide
theorem decode_encAck : decodeEnc Params.hardware { EncIn.nop with op := 0b010#3 } = .ok .encAck := by decide
/-- Ports that the operation does not name are ignored (R90). -/
theorem decode_encCmdrsp :
    decodeEnc Params.hardware
      { op := 0b011#3, tag := 0x07#8, flags := 0x01#8, n := 2#4, params := [1#32, 0#32, 9#32], len := 5#16,
        payload := [0#8] } = .ok (.encCmdrsp 0x07#8 0x01#8 2#4 [1#32, 0#32]) := by decide
theorem decode_encData :
    decodeEnc Params.hardware { EncIn.nop with op := 0b100#3, len := 2#16, payload := [0xDE#8, 0xAD#8, 0xBE#8] } =
      .ok (.encData 2#16 [0xDE#8, 0xAD#8]) := by decide
theorem decode_reserved_codes :
    decodeCrc { op := 3, din := 0 } = .error .reserved ∧ decodeDec { op := 3, rxByte := 0 } = .error .reserved ∧
      decodeEnc Params.hardware { EncIn.nop with op := 5 } = .error .reserved := by decide
theorem decode_refusals :
    decodeFrame Params.hardware [0x5B#8, 0xA1#8] = .error .noStartMarker ∧
      decodeFrame Params.hardware [0x5A#8, 0xA8#8] = .error .unknownType ∧
      decodeFrame Params.hardware [0x5A#8, 0xA4#8, 0x00#8, 0x01#8] = .error .lenExceeded ∧
      decodeFrame Params.hardware [0x5A#8, 0xA7#8, 0#8] = .error .truncated := by decide

/-! ### The host's two entries: the table's word, and a step from reset -/

theorem table_frames :
    decodeTableWord 16 0x5AA1 = some .ack ∧ decodeTableWord 16 0x5AA4 = some (.cmd 0 []) ∧
      decodeTableWord 16 0x5AA7 = some (.pingRsp (List.replicate 8 0)) := by decide +kernel
theorem table_operations :
    decodeTableWord 8 1 = some (.crcSeed 0) ∧ decodeTableWord 8 2 = some (.crcByte 0) ∧
      decodeTableWord 8 3 = some (.encCmdrsp 0 0 0 []) ∧ decodeTableWord 8 4 = some (.encData 0 []) ∧
      decodeTableWord 8 0 = none ∧ decodeTableWord 8 5 = none := by decide
/-- A NAK as the first instruction after reset: None, then Rx, `typ` latched (V51). -/
theorem step_runs_the_fetched_frame :
    after (step (State.reset.withFetchWord 16 0x5AA2)) (fun t => t.events == [.noEvent, .rx] && t.typ == 0xA2#8) =
      true := by decide +kernel
theorem step_runs_the_fetched_operation :
    after (step (State.reset.withFetchWord 8 2)) (fun t => t.crcAcc == 0x0000#16 && t.inputs.isEmpty) = true := by
  decide +kernel

/-! ### One step each, from the spec's vectors -/

theorem test_ack : after (exec .ack (blank .start)) (fun t => t.events == [.noEvent, .rx] && t.typ == 0xA1#8) = true := by
  decide
/-- A whole frame while the parser is in Type: the marker is taken as an unknown type, A2 is discarded (V115). -/
theorem test_nak_in_type :
    after (exec .nak (blank .type)) (fun t => t.events == [.rxErrorType, .noEvent] && t.typ == 0x5A#8) = true := by decide
theorem test_ackAbort :
    after (exec .ackAbort (blank .start)) (fun t => t.events == [.noEvent, .rx] && t.st == .start) = true := by decide
theorem test_ping :
    after (exec .ping (blank .start)) (fun t => t.events == [.noEvent, .rx] && t.typ == 0xA6#8) = true := by decide
/-- V75: `rsvd` is not checked. -/
theorem test_cmd :
    after (exec (.cmd 0x0AA2#16 [0x07#8, 0x00#8, 0xFF#8, 0x00#8]) (blank .start))
      (fun t => t.events == nones 9 ++ [.rx] && t.len == 4#16 && !cmdRsvdOk (bufSlice t 4)) = true := by decide +kernel
/-- V78 with a wrong CRC field: the empty body is evaluated at the CrcHigh byte. -/
theorem test_cmd_empty_wrong_crc :
    after (exec (.cmd 0x7CCD#16 []) (blank .start)) (fun t => t.events == nones 5 ++ [.rxErrorCrc] && t.idx == 0#16) =
      true := by decide +kernel
/-- V83: start markers and type bytes in the payload are data. -/
theorem test_data :
    after (exec (.data 0x4375#16 [0x5A#8, 0xA1#8, 0x5A#8, 0xA6#8]) (blank .start))
      (fun t => t.events == nones 9 ++ [.rx] && bufSlice t 4 == [0x5A#8, 0xA1#8, 0x5A#8, 0xA6#8]) = true := by
  decide +kernel
/-- V103. -/
theorem test_data_empty_wrong_crc :
    after (exec (.data 0x4AFC#16 []) (blank .start)) (fun t => t.events == nones 5 ++ [.rxErrorCrc]) = true := by
  decide +kernel
/-- V62: options 0x1234, crc16 0xB940. -/
theorem test_pingRsp :
    after (exec (.pingRsp [0x01#8, 0x02#8, 0x03#8, 0x50#8, 0x34#8, 0x12#8, 0x40#8, 0xB9#8]) (blank .start))
      (fun t => t.events == nones 9 ++ [.rx] &&
        (pingRspView (bufSlice t 8)).map (fun v => (v.options, v.crc16)) == some (0x1234#16, 0xB940#16)) = true := by
  decide +kernel
/-- V64: the CRC bytes swapped. -/
theorem test_pingRsp_swapped :
    after (exec (.pingRsp [0x00#8, 0x02#8, 0x01#8, 0x50#8, 0x00#8, 0x00#8, 0xEA#8, 0xAA#8]) (blank .start))
      (fun t => t.events == nones 9 ++ [.rxErrorCrc]) = true := by decide +kernel
/-- V42. -/
theorem test_crcSeed : after (exec (.crcSeed 0x1234#16) (blank .start)) (fun t => t.crcAcc == 0x1234#16) = true := by
  decide
/-- V41. -/
theorem test_crcByte :
    after (exec (.crcByte 0x32#8) { blank .start with crcAcc := 0x2672#16 }) (fun t => t.crcAcc == 0x20B5#16) = true := by
  decide
/-- V44, its second operation: the top of the range. -/
theorem test_crcByte_ffff :
    after (exec (.crcByte 0x00#8) { blank .start with crcAcc := 0xFFFF#16 }) (fun t => t.crcAcc == 0xE1F0#16) = true := by
  decide
/-- V91, its last byte: 33 is refused for CMD. -/
theorem test_decByte_bad_length :
    after (exec (.decByte 0x00#8) { blank .lenHigh with typ := 0xA4#8, len := 0x21#16 })
      (fun t => t.events == [.rxErrorLen] && t.st == .start && t.len == 0x21#16) = true := by decide
/-- V93, its last byte: 256 is accepted for DATA. -/
theorem test_decByte_longest :
    after (exec (.decByte 0x01#8) { blank .lenHigh with typ := 0xA5#8, len := 0x00#16 })
      (fun t => t.events == [.noEvent] && t.st == .crcLow && t.len == 0x100#16) = true := by decide
theorem test_decClear :
    after (exec .decClear { blank .data with idx := 3#16, events := [.noEvent] })
      (fun t => t.st == .start && t.idx == 3#16 && t.events == [.noEvent]) = true := by decide
theorem test_encPing : after (exec .encPing (blank .start)) (fun t => t.txData == [0x5A#8, 0xA6#8]) = true := by decide
theorem test_encAck : after (exec .encAck (blank .start)) (fun t => t.txData == [0x5A#8, 0xA1#8]) = true := by decide
/-- V74. -/
theorem test_encCmdrsp :
    after (exec (.encCmdrsp 0x04#8 0x01#8 3#4 [0x20000000#32, 0x400#32, 0#32]) (blank .start))
      (fun t => t.txData ==
        [0x5A#8, 0xA4#8, 0x10#8, 0x00#8, 0xC3#8, 0xCF#8, 0x04#8, 0x01#8, 0x00#8, 0x03#8, 0x00#8, 0x00#8, 0x00#8, 0x20#8,
          0x00#8, 0x04#8, 0x00#8, 0x00#8, 0x00#8, 0x00#8, 0x00#8, 0x00#8]) = true := by decide +kernel
/-- V98. -/
theorem test_encCmdrsp_refused :
    after (exec (.encCmdrsp 0x04#8 0x00#8 8#4 []) { blank .start with txData := [0#8] })
      (fun t => t.encErr && t.txData.isEmpty) = true := by decide
/-- V82: header and framing only. -/
theorem test_encData :
    after (exec (.encData 4#16 [0xDE#8, 0xAD#8, 0xBE#8, 0xEF#8]) (blank .start))
      (fun t => t.txData == [0x5A#8, 0xA5#8, 0x04#8, 0x00#8, 0x46#8, 0x24#8] && !t.encErr) = true := by decide +kernel
/-- V99. -/
theorem test_encData_refused :
    after (exec (.encData 257#16 []) (blank .start)) (fun t => t.encErr && t.txData.isEmpty) = true := by decide

/-! ### Witnesses: for every statement with hypotheses, a state and operands that meet them

A statement of several clauses has a witness for each, at the boundary of its range. -/

/-- CrcTableGivesTheByteStep. -/
theorem witness_table : 255 < 256 := by decide
/-- Crc16IsLinearWithZeroResidue. -/
theorem witness_linear : [0x01#8, 0x02#8].length = [0xFF#8, 0x00#8].length := rfl
/-- OneFlippedBitChangesTheCrc. -/
theorem witness_flipped : 1 < [0x01#8, 0x02#8].length ∧ 7 < 8 := by decide
/-- SeedAndBytesComputeCrc16, its second clause. -/
theorem witness_seed_free :
    seedFree [.crcByte 0x31#8, .encPing] ∧
      after (runOps [.crcSeed 0xFFFF#16, .crcByte 0x31#8, .encPing] (blank .start)) (fun _ => true) = true :=
  ⟨by intro seed; simp, by decide⟩
/-- StartLooksForTheMarker. -/
theorem witness_start :
    (blank .start).st = .start ∧ 0xA1#8 ≠ 0x5A#8 ∧ 0x5A#8 ∉ [0x00#8, 0xFF#8, 0x13#8, 0xA6#8, 0x59#8, 0x5B#8] := by decide
/-- TypeByteSelectsTheFrame: each clause, 0x5A and the neighbours of the type bytes in the last. -/
theorem witness_type :
    (blank .type).st = .type ∧ 0xA6#8 ∈ [0xA1#8, 0xA2#8, 0xA3#8, 0xA6#8] ∧ 0xA7#8 = 0xA7#8 ∧
      0xA5#8 ∈ [0xA4#8, 0xA5#8] ∧
      ∀ b ∈ [0x5A#8, 0x00#8, 0xA0#8, 0xA8#8, 0xFF#8], b ∉ [0xA1#8, 0xA2#8, 0xA3#8, 0xA4#8, 0xA5#8, 0xA6#8, 0xA7#8] := by
  decide
/-- LowBytesAreZeroExtended. -/
theorem witness_low : (blank .lenLow).st = .lenLow ∧ (blank .crcLow).st = .crcLow := by decide
/-- LengthBoundIsApplied: 32, 33, 256, 257, a high byte of 2 and of 1. -/
theorem witness_length :
    (blank .lenHigh).st = .lenHigh ∧ (le16 0x20#8 0x00#8).toNat ≤ 32 ∧ 32 < (le16 0x21#8 0x00#8).toNat ∧
      (le16 0x00#8 0x01#8).toNat ≤ 256 ∧ 256 < (le16 0x01#8 0x01#8).toNat ∧ 2 ≤ (0x02#8).toNat ∧ 0x01#8 ≠ 0#8 := by decide
/-- HighCrcByteOpensTheBody: a body, and none. -/
theorem witness_crc_high :
    (blank .crcHigh).st = .crcHigh ∧ 0x01#16 ≠ 0#16 ∧ (blank .crcHigh).len = 0#16 ∧ 0xA4#8 ∈ [0xA4#8, 0xA5#8] := by decide
/-- BodyByteIsStored: the last byte but one and the last of the longest DATA body, of the shortest, and of a PING_RSP. -/
theorem witness_body :
    (blank .data).st = .data ∧ 0xA5#8 ∈ [0xA4#8, 0xA5#8] ∧ (0x100#16).toNat ≤ 256 ∧
      (0xFE#16).toNat + 1 < (0x100#16).toNat ∧ (0xFF#16).toNat + 1 = (0x100#16).toNat ∧ (0#16).toNat + 1 = (1#16).toNat ∧
      (6#16).toNat + 1 < 8 ∧ (7#16).toNat + 1 = 8 ∧ (0xFF#16).toNat < 256 ∧ 0 ≠ (0xFF#16).toNat := by decide
/-- EvaluationChecksTheCoveredRange: each type, and each place where a frame completes. -/
theorem witness_evaluation :
    0xA6#8 ∈ [0xA1#8, 0xA2#8, 0xA3#8, 0xA6#8] ∧ 0xA5#8 ∈ [0xA4#8, 0xA5#8] ∧ (0x100#16).toNat ≤ 256 ∧ 0xA7#8 = 0xA7#8 ∧
      (blank .type).st = .type ∧ (blank .crcHigh).st = .crcHigh ∧ (blank .crcHigh).len = 0#16 ∧
      (blank .data).st = .data ∧ (0xFF#16).toNat < 256 ∧
      need Params.hardware 0xA5#8 0x100#16 = some ((0xFF#16).toNat + 1) := by decide

/-- EveryEventLeavesTheParserInStart, with an event other than None. -/
theorem witness_event :
    after (exec (.decByte 0xA1#8) (blank .type)) (fun t => t.events == [.rx]) = true ∧ Event.rx ≠ .noEvent := by decide
/-- DecByteWritesOnlyWhatItsStateNames: a next state in each state named by a clause. -/
theorem witness_dec_frame :
    (∀ st ∈ [ParserState.start, .type, .lenLow, .crcLow, .crcHigh],
      after (exec (.decByte 0x00#8) { blank st with len := 1#16 }) (fun _ => true) = true) ∧
    after (exec (.decByte 0x00#8) { blank .lenHigh with typ := 0xA4#8 }) (fun _ => true) = true ∧
    after (exec (.decByte 0x00#8) { blank .data with typ := 0xA7#8, idx := 3#16 }) (fun _ => true) = true := by decide
/-- StatesAreEnteredInOrder: each state entered. -/
theorem witness_entered :
    after (exec (.decByte 0x5A#8) (blank .start)) (fun t => t.st == .type) = true ∧
    after (exec (.decByte 0xA4#8) (blank .type)) (fun t => t.st == .lenLow) = true ∧
    after (exec (.decByte 0x20#8) (blank .lenLow)) (fun t => t.st == .lenHigh) = true ∧
    after (exec (.decByte 0x00#8) { blank .lenHigh with typ := 0xA4#8, len := 0x20#16 }) (fun t => t.st == .crcLow) = true ∧
    after (exec (.decByte 0x00#8) (blank .crcLow)) (fun t => t.st == .crcHigh) = true ∧
    after (exec (.decByte 0xA7#8) (blank .type)) (fun t => t.st == .data) = true ∧
    after (exec (.decByte 0x00#8) { blank .crcHigh with len := 1#16 }) (fun t => t.st == .data) = true ∧
    after (exec (.decByte 0x00#8) { blank .data with typ := 0xA7#8, idx := 6#16 }) (fun t => t.st == .data) = true := by
  decide
/-- DecByteInDoneIsRefused. -/
theorem witness_done : (blank .done).st = .done := rfl

/-- A parser in the middle of a DATA body of two bytes, one of them stored. -/
def midBody : State := { blank .data with typ := 0xA5#8, len := 2#16, idx := 1#16, buf := [(0, 0xDE#8)] }

/-- A safe state away from reset: DecByteKeepsTheInvariantForAllParams, EveryInstructionCompletesInSafeStates,
EveryStepKeepsTheInvariant, ParserReturnsToStart. -/
theorem witness_safe_midBody : SafeState midBody where
  notDone := by decide
  bufWf := by decide
  framedTyp := by intro h; simp [midBody, blank] at h
  lenLowOnly := by decide
  lenBound := by intro h; simp [midBody, blank] at h
  crcLowOnly := by decide
  bodyBound := fun _ => ⟨2, by decide, by decide, by decide⟩
  bodyWritten := by decide
  txBound := by decide
  refusedEmpty := by decide

/-- LengthBoundIsApplied, its last clause: a safe state in LenHigh. BodyByteIsStored's last clause: `midBody`. -/
theorem witness_safe_lenHigh : SafeState { blank .lenHigh with typ := 0xA4#8, len := 0x20#16 } where
  notDone := by decide
  bufWf := by decide
  framedTyp := fun _ => ⟨32, by decide⟩
  lenLowOnly := by decide
  lenBound := by intro h; simp [blank] at h
  crcLowOnly := by decide
  bodyBound := by intro h; cases h
  bodyWritten := by decide
  txBound := by decide
  refusedEmpty := by decide

/-- DecByteKeepsTheInvariantForAllParams: the hypothesis on the parameters, and another instance that meets it. -/
theorem witness_params : Params.hardware.Ok ∧ { Params.hardware with maxCmdLen := 64, typeAck := 0x11#8 }.Ok := by decide
/-- ParserReturnsToStart: runs of the lengths named. -/
theorem witness_run_lengths :
    (List.replicate 261 0x00#8).length = 261 ∧ (blank .type).st = .type ∧ (List.replicate 8 0x00#8).length = 8 := by
  decide +kernel
/-- BareFramesGiveRx. -/
theorem witness_bare : (blank .start).st = .start := rfl
/-- CmdFrameFromStart: no body, the longest body; the shortest length refused. -/
theorem witness_cmd :
    (blank .start).st = .start ∧ (List.replicate 0 0x00#8).length ≤ 32 ∧ (List.replicate 32 0x00#8).length ≤ 32 ∧
      32 < (le16 0x21#8 0x00#8).toNat := by decide
/-- DataFrameFromStart: no payload, the longest; the shortest length refused. -/
theorem witness_data :
    (blank .start).st = .start ∧ (List.replicate 0 0x00#8).length ≤ 256 ∧ (List.replicate 256 0x00#8).length ≤ 256 ∧
      256 < (le16 0x01#8 0x01#8).toNat := by decide +kernel
/-- PingRspFrameFromStart. -/
theorem witness_pingRsp : (blank .start).st = .start := rfl
/-- ValidFrameIsReportedAsSent: V71 and V84. -/
theorem witness_valid :
    (blank .start).st = .start ∧ framedOk 0xA4#8 [0x0B#8, 0x00#8, 0x00#8, 0x00#8] ∧
      0x466F#16 = crc16 Params.hardware [0x5A#8, 0xA4#8, 0x04#8, 0x00#8, 0x0B#8, 0x00#8, 0x00#8, 0x00#8] 0#16 ∧
      framedOk 0xA5#8 [] ∧ 0x4BFC#16 = crc16 Params.hardware [0x5A#8, 0xA5#8, 0x00#8, 0x00#8] 0#16 :=
  ⟨rfl, .inl ⟨rfl, by decide⟩, by decide +kernel, .inr ⟨rfl, by decide⟩, by decide +kernel⟩
/-- OneFlippedBitIsReported: V71, its first CRC byte and its last body byte. -/
theorem witness_one_flipped :
    (blank .start).st = .start ∧ framedOk 0xA4#8 [0x0B#8, 0x00#8, 0x00#8, 0x00#8] ∧
      0x466F#16 = crc16 Params.hardware [0x5A#8, 0xA4#8, 0x04#8, 0x00#8, 0x0B#8, 0x00#8, 0x00#8, 0x00#8] 0#16 ∧
      4 ≤ 4 ∧ 4 ≤ 9 ∧
      9 < ([0x5A#8, 0xA4#8, 0x04#8, 0x00#8, 0x6F#8, 0x46#8] ++ [0x0B#8, 0x00#8, 0x00#8, 0x00#8]).length ∧ 7 < 8 :=
  ⟨rfl, .inl ⟨rfl, by decide⟩, by decide +kernel, by decide, by decide, by decide, by decide⟩
/-- PingRspIsReportedAndItsFlippedBitsToo: V60, its first field byte and its last CRC byte. -/
theorem witness_pingRsp_flipped :
    (blank .start).st = .start ∧ [0x00#8, 0x02#8, 0x01#8, 0x50#8, 0x00#8, 0x00#8].length = 6 ∧
      0xEAAA#16 = crc16 Params.hardware [0x5A#8, 0xA7#8, 0x00#8, 0x02#8, 0x01#8, 0x50#8, 0x00#8, 0x00#8] 0#16 ∧
      2 ≤ 2 ∧ 9 < 10 ∧ 7 < 8 := by decide +kernel
/-- FrameRunsAsItsBytes. -/
theorem witness_frame_bytes : encode Params.hardware .nak = .frame [0x5A#8, 0xA2#8] := by decide
/-- CmdrspIsBuilt, BuiltCmdrspIsReceived: no parameter and seven; the ports of its third clause are those of
`decode_encCmdrsp`, and of DataHeaderIsBuilt's those of `decode_encData`. -/
theorem witness_cmdrsp :
    (0#4).toNat ≤ 7 ∧ ([] : List U32).length = (0#4).toNat ∧ (7#4).toNat ≤ 7 ∧
      (List.replicate 7 0#32).length = (7#4).toNat ∧ (blank .start).st = .start := by decide
/-- DataHeaderIsBuilt, BuiltDataPingAckAreReceived: no payload and the longest. -/
theorem witness_data_header :
    (0#16).toNat ≤ 256 ∧ ([] : List Byte).length = (0#16).toNat ∧ (256#16).toNat ≤ 256 ∧
      (List.replicate 256 0#8).length = (256#16).toNat ∧ (blank .start).st = .start := by decide +kernel
/-- EncoderRefusesExcess. -/
theorem witness_excess : 7 < (8#4).toNat ∧ 256 < (257#16).toNat := by decide
/-- ResetInputOverridesOperations: an edge with `rst` and an operation. -/
theorem witness_reset :
    ({ blank .data with inputs := [.edge { Edge.nop with rst := true, dec := { op := 1, rxByte := 0x5A#8 } }] }).inputs =
        .edge { Edge.nop with rst := true, dec := { op := 1, rxByte := 0x5A#8 } } :: [] ∧
      after (step { blank .data with inputs := [.edge { Edge.nop with rst := true }] })
        (fun t => t.resets == 2 && t.resets != (blank .data).resets) = true := ⟨rfl, rfl⟩
/-- UnspecifiedRegistersAreNeverRead: two parsers in Start that differ, and a run that ends with Rx (V84). -/
theorem witness_unspecified :
    (blank .start).st = .start ∧ ({ blank .start with typ := 0xA7#8, idx := 9#16, buf := [(3, 0x55#8)] }).st = .start ∧
      (blank .start).events = [] ∧
      after (feed Params.hardware [0x5A#8, 0xA5#8, 0x00#8, 0x00#8, 0xFC#8, 0x4B#8] (blank .start))
        (fun t => t.events.getLast? == some .rx) = true := by decide +kernel
/-- UnitsShareNoState: each clause. -/
theorem witness_units :
    after (exec (.decByte 0x00#8) (blank .start)) (fun _ => true) = true ∧ unitOf (.decByte 0x00#8) ≠ .crcgen ∧
      after (exec (.crcByte 0x00#8) (blank .start)) (fun _ => true) = true ∧ unitOf (.crcByte 0x00#8) ≠ .enc ∧
      after (exec .encPing (blank .start)) (fun _ => true) = true ∧ unitOf .encPing ≠ .dec := by decide
/-- OperationsOfDifferentUnitsCommute. -/
theorem witness_commute : unitOf (.crcByte 0x31#8) ≠ unitOf (.decByte 0x5A#8) := by decide
/-- StepRunsTheDecodedInstruction: a frame with a byte after it, in Type, and an operation of each unit. -/
theorem witness_step :
    ({ blank .type with inputs := [.frame [0x5A#8, 0xA1#8, 0x00#8]] }).inputs =
        presentedOf (.frame [0x5A#8, 0xA1#8, 0x00#8]) :: [] ∧
      decode Params.hardware (.frame [0x5A#8, 0xA1#8, 0x00#8]) = .ok (.ack, [0x00#8]) ∧
      decode Params.hardware (.crc { op := 1, din := 0 }) = .ok (.crcSeed 0, []) ∧
      decode Params.hardware (.dec { op := 1, rxByte := 0 }) = .ok (.decByte 0, []) ∧
      decode Params.hardware (.enc { EncIn.nop with op := 1 }) = .ok (.encPing, []) := by decide

/-- An edge with an operation for each unit. -/
def busyEdge : Edge where
  rst := false
  crc := { op := 2, din := 0x31#16 }
  dec := { op := 1, rxByte := 0x5A#8 }
  enc := { EncIn.nop with op := 1 }

/-- EdgePerformsOneOperationPerUnit; OutputsShowTheLatestEdge, its second and fourth clauses: an operation on each port. -/
theorem witness_edge :
    ({ blank .start with inputs := [.edge busyEdge] }).inputs = .edge busyEdge :: [] ∧ busyEdge.rst = false ∧
      selected (decodeCrc busyEdge.crc) = [.crcByte 0x31#8] ∧ decodeDec busyEdge.dec = .ok (.decByte 0x5A#8) ∧
      decodeEnc Params.hardware busyEdge.enc = .ok .encPing ∧
      after (step { blank .start with inputs := [.edge busyEdge] })
        (fun t => t.st == .type && t.crcAcc == 0x2672#16 && (portOut t 0).txData == [0x5A#8, 0xA6#8] &&
          (portOut t 0).txLen == 2#6) = true := by decide
/-- EdgePerformsOneOperationPerUnit: one operation beside a reserved code and a NOP. -/
theorem witness_edge_reserved :
    let e : Edge := { busyEdge with crc := { op := 3, din := 0 }, enc := EncIn.nop }
    e.rst = false ∧ e.crc.op ∈ [0#2, 3#2] ∧ e.enc.op ∈ [0#3, 5#3, 6#3, 7#3] ∧
      after (step { blank .start with inputs := [.edge e] }) (fun t => t.st == .type && t.crcAcc == 0x0000#16) = true := by
  decide
/-- NopAndReservedCodesChangeNothing: NOP and reserved codes; nothing presented. OutputsShowTheLatestEdge, its first and
third clauses: no DEC.BYTE and no encoder operation. -/
theorem witness_nop :
    Edge.nop.rst = false ∧ Edge.nop.crc.op ∈ [0#2, 3#2] ∧ Edge.nop.dec.op ∈ [0#2, 3#2] ∧
      Edge.nop.enc.op ∈ [0#3, 5#3, 6#3, 7#3] ∧ (blank .start).inputs = [] ∧
      (∀ b, decodeDec Edge.nop.dec ≠ .ok (.decByte b)) ∧ (∀ k, decodeEnc Params.hardware Edge.nop.enc ≠ .ok k) ∧
      after (step { blank .start with inputs := [.edge Edge.nop] }) (fun _ => true) = true :=
  ⟨rfl, by decide, by decide, by decide, rfl, (by intro b h; cases h), (by intro k h; cases h), by decide⟩
/-- WireBytesAreConsumedInOrder, its second case: bytes that are no frame. -/
theorem witness_no_frame :
    decodeFrame Params.hardware [0x00#8, 0x5A#8] = .error .noStartMarker ∧
      after (step { blank .start with inputs := [.frame [0x00#8, 0x5A#8]] })
        (fun t => t.st == .start && t.events == [.noEvent] && t.inputs == [.wire [0x5A#8]]) = true := by decide
/-- WireBytesAreConsumedInOrder, RunningTheWireIsFeedingItsBytes: an ACK on the wire from Start; its first step takes the
start marker alone (V54). -/
theorem witness_wire :
    ({ blank .start with inputs := [.wire [0x5A#8, 0xA1#8]] }).inputs = .wire [0x5A#8, 0xA1#8] :: [] ∧
      [0x5A#8, 0xA1#8] ≠ [] ∧
      after (feed Params.hardware [0x5A#8, 0xA1#8] { blank .start with inputs := [.wire [0x5A#8, 0xA1#8]] })
        (fun t => t.events == [.noEvent, .rx]) = true ∧
      after (step { blank .start with inputs := [.wire [0x5A#8, 0xA1#8]] })
        (fun t => t.st == .type && t.events == [.noEvent] && t.inputs == [.wire [0xA1#8]]) = true := by decide
/-- FrameStepIsTheStepsOfItsBytes: an ACK presented as one instruction, with a byte after it. -/
theorem witness_frame_step :
    decodeFrame Params.hardware [0x5A#8, 0xA1#8, 0x00#8] = .ok (.ack, [0x00#8]) ∧
      2 + [0x00#8].length = [0x5A#8, 0xA1#8, 0x00#8].length ∧
      after (step { blank .start with inputs := [.frame [0x5A#8, 0xA1#8, 0x00#8]] })
        (fun t => t.events == [.noEvent, .rx] && t.inputs == [.wire [0x00#8]]) = true := by decide
/-- DecodeOfEncodeIsTheInstruction: a well-formed term with every operand at its boundary. -/
theorem witness_wellFormed :
    wellFormed Params.hardware (.cmd 0xFFFF#16 (List.replicate 32 0xFF#8)) = true ∧
      wellFormed Params.hardware (.data 0xFFFF#16 (List.replicate 256 0xFF#8)) = true ∧
      wellFormed Params.hardware (.pingRsp (List.replicate 8 0xFF#8)) = true ∧
      wellFormed Params.hardware (.encCmdrsp 0xFF#8 0xFF#8 7#4 (List.replicate 7 0xFFFFFFFF#32)) = true ∧
      wellFormed Params.hardware (.encCmdrsp 0xFF#8 0xFF#8 8#4 []) = true ∧
      wellFormed Params.hardware (.encData 256#16 (List.replicate 256 0xFF#8)) = true ∧
      wellFormed Params.hardware (.encData 257#16 []) = true ∧
      encode Params.hardware .ping = .frame [0x5A#8, 0xA6#8] := by decide +kernel
/-- DecodedFrameIsItsEncoding. -/
theorem witness_decoded : decodeFrame Params.hardware [0x5A#8, 0xA6#8, 0x5A#8] = .ok (.ping, [0x5A#8]) := by decide
/-- V78: the CRC of a line with `len=0` covers no body byte (log 20). -/
theorem test_frame_line_len_0 :
    (FrameLine.bytes Params.hardware (.cmd 0x07#8 0x00#8 none [] (some 0#16) none)).take 6 =
      [0x5A#8, 0xA4#8, 0x00#8, 0x00#8, 0xCC#8, 0x7C#8] := by decide +kernel
/-- FrameLinesWithoutOverridesAreValid: a bare line, and the longest of the others. -/
theorem witness_frame_lines :
    (blank .start).st = .start ∧ FrameLine.ping ∈ [.ack, .nak, .ackAbort, .ping] ∧ (List.replicate 7 0#32).length ≤ 7 ∧ (List.replicate 256 0#8).length ≤ 256 := by
  decide +kernel

end Sys2Proof.Tests
end

/-! ### The invariant, read state by state -/

namespace Sys2Proof.Machine

/-- What `Inv` says of the parser's registers, by the value of `st` (R134, R135). -/
def ParserInv (p : Params) (s : State) : Prop :=
  match s.st with
  | .start | .type => True
  | .lenLow => ∃ m, maxLen p s.typ = some m
  | .lenHigh => (∃ m, maxLen p s.typ = some m) ∧ s.len.toNat < 256
  | .crcLow => ∃ m, maxLen p s.typ = some m ∧ s.len.toNat ≤ m
  | .crcHigh => (∃ m, maxLen p s.typ = some m ∧ s.len.toNat ≤ m) ∧ s.crcRx.toNat < 256
  | .data =>
    (∃ n, need p s.typ s.len = some n ∧ s.idx.toNat < n ∧ n ≤ p.bufSize) ∧
      ∀ i < s.idx.toNat, (Memory.find i s.buf).isSome = true
  | .done => False

/-- `Inv` is `ParserInv` with the conditions that hold in every parser state. -/
theorem inv_iff {p : Params} {s : State} :
    Inv p s ↔ ParserInv p s ∧ Memory.wf p.bufSize s.buf = true ∧ s.txData.length ≤ 10 + 4 * p.maxParams ∧
      (s.encErr = true → s.txData = []) := by
  constructor
  · rintro ⟨hdone, hwf, htyp, hlow, hlen, hcrc, hbody, hwritten, htx, herr⟩
    refine ⟨?_, hwf, htx, herr⟩
    cases hs : s.st <;> simp_all [ParserInv]
  · rintro ⟨hp, hwf, htx, herr⟩
    -- in CrcLow and CrcHigh the limit that `framedTyp` asks for is the one that bounds `len`
    cases hs : s.st <;> simp only [ParserInv, hs] at hp <;> constructor <;> simp_all
    case crcLow.framedTyp => exact hp.imp fun m hm => hm.1
    case crcHigh.framedTyp => exact hp.1.imp fun m hm => hm.1

/-- The invariant does not speak of `crc_acc`, of the events or of what the client presents. -/
theorem inv_of_crcAcc_events_inputs {p : Params} {s : State} (h : Inv p s) (crc : U16) (events : List Event)
    (inputs : List Presented) : Inv p { s with crcAcc := crc, events := events, inputs := inputs } := { h with }

/-- Taking an item off the client's list does not touch the invariant. -/
theorem inv_inputs {p : Params} {s : State} (h : Inv p s) (inputs : List Presented) :
    Inv p { s with inputs := inputs } := inv_of_crcAcc_events_inputs h _ _ inputs

/-- Between frames the invariant asks nothing of `typ`, `len`, `crc_rx` and `idx`. -/
theorem inv_of_start {p : Params} {s : State} (hs : s.st = .start) (hwf : Memory.wf p.bufSize s.buf = true)
    (htx : s.txData.length ≤ 10 + 4 * p.maxParams) (herr : s.encErr = true → s.txData = []) : Inv p s :=
  inv_iff.mpr ⟨by simp [ParserInv, hs], hwf, htx, herr⟩

theorem inv_clearOutputs {p : Params} {s : State} (h : Inv p s) : Inv p (clearOutputs s) :=
  { h with txBound := Nat.zero_le _, refusedEmpty := fun _ => rfl }

theorem inv_applyReset {p : Params} {s : State} (h : Inv p s) : Inv p (applyReset p s) :=
  inv_of_start rfl (wf_afterReset s.resets h.bufWf) (Nat.zero_le _) (fun _ => rfl)

/-- An encoder's result keeps the invariant when its bytes fit `tx_data`. -/
theorem inv_setTx {p : Params} {s : State} {r : Option (List Byte)} (h : Inv p s)
    (hr : ∀ bytes, r = some bytes → bytes.length ≤ 10 + 4 * p.maxParams) : Inv p (setTx r s) := by
  cases r with
  | none => exact { h with txBound := Nat.zero_le _, refusedEmpty := fun _ => rfl }
  | some bytes => exact { h with txBound := hr bytes rfl, refusedEmpty := fun he => by simp at he }

end Sys2Proof.Machine

/-! ### DEC.BYTE: its frame, that it completes and that it keeps the invariant -/

namespace Sys2Proof.Machine

section

variable {p : Params} {b : Byte} {s t : State} {typ : Byte} {m n : Nat}

/-- The evaluation writes `st` and gives one event (R132). -/
theorem evaluate_endFrame (h : evaluate p s = .next t) : ∃ e, t = endFrame e s := by
  rcases evaluate_next h with rfl | rfl
  · exact ⟨_, rfl⟩
  · exact ⟨_, rfl⟩

/-- No DEC.BYTE touches CRCGEN, ENC, what the client presents or the count of resets (R61, R134). -/
theorem decByte_frame (h : decByte p b s = .next t) :
    t.crcAcc = s.crcAcc ∧ t.txData = s.txData ∧ t.encErr = s.encErr ∧ t.inputs = s.inputs ∧ t.resets = s.resets := by
  cases decByte_row h with
  | marker _ _ ht | discard _ _ ht | bare _ _ _ _ ht | pingRsp _ _ ht | framed _ _ _ _ ht | badType _ _ ht
  | lenLow _ ht | lenHigh _ _ _ _ ht | badLen _ _ _ _ ht | crcLow _ ht | crcHigh _ _ ht | body _ _ _ _ _ ht =>
    subst ht
    exact ⟨rfl, rfl, rfl, rfl, rfl⟩
  | empty _ _ he | last _ _ _ _ _ he =>
    obtain ⟨e, rfl⟩ := evaluate_endFrame he
    exact ⟨rfl, rfl, rfl, rfl, rfl⟩

/-- The limits of R127 are limits of FRAMED types. -/
theorem frameKind_of_maxLen (h : maxLen p typ = some m) :
    (frameKind p typ = some .cmd ∧ m = p.maxCmdLen) ∨ (frameKind p typ = some .data ∧ m = p.maxDataLen) := by
  unfold maxLen at h
  split at h
  · next hk => exact .inl ⟨hk, by simpa using h.symm⟩
  · next hk => exact .inr ⟨hk, by simpa using h.symm⟩
  · simp at h

theorem need_of_maxLen (h : maxLen p typ = some m) (len : U16) : need p typ len = some len.toNat := by
  rcases frameKind_of_maxLen h with ⟨hk, -⟩ | ⟨hk, -⟩ <;> simp [need, hk]

/-- Every body within its limit fits the buffer (R6). -/
theorem maxLen_le_bufSize (hp : p.Ok) (h : maxLen p typ = some m) : m ≤ p.bufSize := by
  obtain ⟨-, -, hbuf, -⟩ := hp
  rcases frameKind_of_maxLen h with ⟨-, rfl⟩ | ⟨-, rfl⟩ <;> omega

/-- A FRAMED type is one for which R127 names a limit. -/
theorem maxLen_of_framed {k : FrameKind} (hk : frameKind p typ = some k) (hf : k = .cmd ∨ k = .data) :
    ∃ m, maxLen p typ = some m := by
  rcases hf with rfl | rfl <;> simp [maxLen, hk]

/-- The evaluation completes when the body of the frame fits the buffer. -/
theorem evaluate_completes (hn : need p s.typ s.len = some n) (hb : n ≤ p.bufSize) : Completes (evaluate p s) := by
  unfold need at hn
  split at hn
  · next hk => exact ⟨_, evaluate_framed hk (.inl rfl) (by simp at hn; omega)⟩
  · next hk => exact ⟨_, evaluate_framed hk (.inr rfl) (by simp at hn; omega)⟩
  · next hk => exact ⟨_, evaluate_pingRsp hk (by simp at hn; omega)⟩
  · simp at hn

theorem decType_completes (p : Params) (b : Byte) (s : State) : Completes (decType p b s) := by
  cases hk : frameKind p b with
  | none => exact ⟨_, by simp [decType, hk]; rfl⟩
  | some k =>
    cases hf : k.format with
    | bare => exact ⟨_, by simpa [decType, hk, hf] using evaluate_bare (s := { s with typ := b, st := .done }) hk hf⟩
    | framed => exact ⟨_, by simp [decType, hk, hf]; rfl⟩
    | pingRsp => exact ⟨_, by simp [decType, hk, hf]; rfl⟩

theorem decLenHigh_completes (b : Byte) (h : maxLen p s.typ = some m) : Completes (decLenHigh p b s) := by
  by_cases hl : m < (le16 (lo s.len) b).toNat
  · exact ⟨_, by simp [decLenHigh, h, hl]; rfl⟩
  · exact ⟨_, by simp [decLenHigh, h, hl]; rfl⟩

theorem decCrcHigh_completes (b : Byte) (h : maxLen p s.typ = some m) : Completes (decCrcHigh p b s) := by
  by_cases hl : s.len = 0#16
  · rw [decCrcHigh, if_pos hl]
    exact evaluate_completes (need_of_maxLen h s.len) (by simp [hl])
  · exact ⟨_, by simp [decCrcHigh, hl]; rfl⟩

theorem decData_completes (b : Byte) (hn : need p s.typ s.len = some n) (hi : s.idx.toNat < n) (hb : n ≤ p.bufSize) :
    Completes (decData p b s) := by
  have hw : bufWrite p s.idx.toNat b s = .ok { s with buf := Memory.put s.idx.toNat b s.buf } := by
    simp [bufWrite, show s.idx.toNat < p.bufSize by omega]
  by_cases hl : s.idx.toNat + 1 = n
  · simp only [decData, hn, hw, hl, if_true]
    exact evaluate_completes hn hb
  · exact ⟨_, by simp [decData, hn, hw, hl]; rfl⟩

/-- Under the invariant no DEC.BYTE stops the machine: `typ` has a limit where one is asked for, the store is inside the
buffer, and `st` is not Done (R51, R127, R133). -/
theorem decByte_completes (h : Inv p s) (b : Byte) : Completes (decByte p b s) := by
  cases hs : s.st with
  | start =>
    rw [decByte_start hs, decStart]
    split <;> exact ⟨_, rfl⟩
  | type => exact decByte_type hs ▸ decType_completes p b s
  | lenLow => exact ⟨_, decByte_lenLow hs⟩
  | lenHigh =>
    obtain ⟨m, hm⟩ := h.framedTyp (by simp [hs])
    exact decByte_lenHigh hs ▸ decLenHigh_completes b hm
  | crcLow => exact ⟨_, decByte_crcLow hs⟩
  | crcHigh =>
    obtain ⟨m, hm, -⟩ := h.lenBound (by simp [hs])
    exact decByte_crcHigh hs ▸ decCrcHigh_completes b hm
  | data =>
    obtain ⟨n, hn, hi, hb⟩ := h.bodyBound hs
    exact decByte_data hs ▸ decData_completes b hn hi hb
  | done => exact absurd hs h.notDone

/-- The only store of DEC.BYTE is inside the buffer, so the canonical form stays (R51, R130). -/
theorem decByte_keeps_wf (hwf : Memory.wf p.bufSize s.buf = true) (h : decByte p b s = .next t) :
    Memory.wf p.bufSize t.buf = true := by
  cases decByte_row h with
  | marker _ _ ht | discard _ _ ht | bare _ _ _ _ ht | pingRsp _ _ ht | framed _ _ _ _ ht | badType _ _ ht
  | lenLow _ ht | lenHigh _ _ _ _ ht | badLen _ _ _ _ ht | crcLow _ ht | crcHigh _ _ ht =>
    subst ht
    exact hwf
  | empty _ _ he =>
    obtain ⟨e, rfl⟩ := evaluate_endFrame he
    exact hwf
  | body _ _ _ hi _ ht =>
    subst ht
    exact wf_put hi b hwf
  | last _ _ _ hi _ he =>
    obtain ⟨e, rfl⟩ := evaluate_endFrame he
    exact wf_put hi b hwf

/-- A body byte stored at `idx`, with `idx` counted on, keeps every byte before `idx` written. `idx` may wrap only where
the buffer has more than 65536 bytes, and then nothing is before it. -/
theorem bodyWritten_put {idx : U16} {buf : List Host.Cell} (h : ∀ i < idx.toNat, (Memory.find i buf).isSome = true) :
    ∀ i < (idx + 1#16).toNat, (Memory.find i (Memory.put idx.toNat b buf)).isSome = true := by
  intro i hi
  have hle : (idx + 1#16).toNat ≤ idx.toNat + 1 := by simpa using Nat.mod_le (idx.toNat + 1) 65536
  by_cases he : i = idx.toNat
  · rw [he, find_put_same]; rfl
  · rw [find_put_other he]
    exact h i (by omega)

/-- Each row of the transition table (R134) establishes what the state it enters asks for. -/
theorem decByte_keeps_parserInv (hp : p.Ok) (h : Inv p s) (hstep : decByte p b s = .next t) : ParserInv p t := by
  cases decByte_row hstep with
  | marker _ _ ht => subst ht; trivial
  | discard hs _ ht => subst ht; simp [ParserInv, hs]
  | bare _ _ _ _ ht | badType _ _ ht | badLen _ _ _ _ ht => subst ht; trivial
  | pingRsp _ hk ht =>
    obtain ⟨-, -, hbuf, hlen, -⟩ := hp
    subst ht
    exact ⟨⟨p.pingRspBodyLen, by simp [need, hk], by simp; omega, by omega⟩, by simp⟩
  | framed _ k hk hf ht => subst ht; exact maxLen_of_framed hk hf
  | lenLow hs ht =>
    subst ht
    exact ⟨h.framedTyp (by simp [hs]), zext16_toNat b ▸ b.isLt⟩
  | lenHigh _ m hm hl ht => subst ht; exact ⟨m, hm, hl⟩
  | crcLow hs ht =>
    subst ht
    exact ⟨h.lenBound (by simp [hs]), zext16_toNat b ▸ b.isLt⟩
  | crcHigh hs hl ht =>
    obtain ⟨m, hm, hle⟩ := h.lenBound (by simp [hs])
    have hpos : s.len.toNat ≠ 0 := fun h0 => hl (BitVec.eq_of_toNat_eq h0)
    subst ht
    exact ⟨⟨s.len.toNat, need_of_maxLen hm s.len, by simp; omega, hle.trans (maxLen_le_bufSize hp hm)⟩, by simp⟩
  | empty _ _ he | last _ _ _ _ _ he => obtain ⟨e, rfl⟩ := evaluate_endFrame he; trivial
  | body hs n hn _ hlast ht =>
    obtain ⟨n', hn', hlt, hb⟩ := h.bodyBound hs
    obtain rfl : n = n' := by simpa [hn] using hn'
    have hle : (s.idx + 1#16).toNat ≤ s.idx.toNat + 1 := by simpa using Nat.mod_le (s.idx.toNat + 1) 65536
    subst ht
    simp only [ParserInv, emit_st, hs]
    exact ⟨⟨n, hn, by simp only [emit_idx]; omega, hb⟩, bodyWritten_put (h.bodyWritten hs)⟩

/-- `Inv` is preserved by DEC.BYTE, for all parameters that meet R6. -/
theorem decByte_keeps_inv (hp : p.Ok) (h : Inv p s) (hstep : decByte p b s = .next t) : Inv p t := by
  obtain ⟨-, htx, herr, -, -⟩ := decByte_frame hstep
  refine inv_iff.mpr ⟨decByte_keeps_parserInv hp h hstep, decByte_keeps_wf h.bufWf hstep, ?_, ?_⟩
  · exact htx ▸ h.txBound
  · exact htx ▸ herr ▸ h.refusedEmpty

end

end Sys2Proof.Machine

/-! ### Instructions and steps in safe states -/

namespace Sys2Proof.Machine

/-- The parameters of this hardware meet R6. -/
theorem hardware_ok : Params.hardware.Ok := by decide

/-- The operation answers a next state that meets the invariant. -/
def CompletesIn (p : Params) (r : Result) : Prop := ∃ t, r = .next t ∧ Inv p t

section

variable {p : Params} {s : State}

theorem completesIn_next (h : Inv p s) : CompletesIn p (.next s) := ⟨s, rfl, h⟩

theorem completesIn_andThen {r : Result} {f : State → Result} (hr : CompletesIn p r)
    (hf : ∀ s, Inv p s → CompletesIn p (f s)) : CompletesIn p (andThen r f) := by
  obtain ⟨t, rfl, ht⟩ := hr
  exact hf t ht

theorem decByte_completesIn (hp : p.Ok) (b : Byte) (h : Inv p s) : CompletesIn p (decByte p b s) := by
  obtain ⟨t, ht⟩ := decByte_completes h b
  exact ⟨t, ht, decByte_keeps_inv hp h ht⟩

theorem feed_completesIn (hp : p.Ok) : ∀ (bytes : List Byte) {s : State}, Inv p s → CompletesIn p (feed p bytes s)
  | [], _, h => completesIn_next h
  | b :: bytes, _, h =>
    completesIn_andThen (decByte_completesIn hp b h) fun _ hu => feed_completesIn hp bytes hu

end

/-- The longest CmdRsp has 10 + 4 · MAX_PARAMS bytes (R172). -/
theorem buildCmdrsp_length_le {p : Params} {tag flags : Byte} {params : List U32} {bytes : List Byte}
    (h : buildCmdrsp p tag flags params = some bytes) : bytes.length ≤ 10 + 4 * p.maxParams := by
  unfold buildCmdrsp at h
  split at h
  · simp at h
  · next hmax =>
    simp only [Option.some.injEq] at h
    subst h
    simp [framedHeader, cmdrspBody]
    omega

/-- A data header has six bytes (R173). -/
theorem buildData_length {p : Params} {payload bytes : List Byte} (h : buildData p payload = some bytes) :
    bytes.length = 6 := by
  unfold buildData at h
  split at h
  · simp at h
  · simp only [Option.some.injEq] at h
    subst h
    rfl

/-- No instruction stops the machine or leaves the safe states. -/
theorem exec_completesIn (i : Instr) {s : State} (h : SafeState s) : CompletesIn Params.hardware (exec i s) := by
  cases i with
  | ack | nak | ackAbort | ping | cmd | data | pingRsp => exact feed_completesIn hardware_ok _ h
  | decByte b => exact decByte_completesIn hardware_ok b h
  | decClear => exact completesIn_next (inv_of_start rfl h.bufWf h.txBound h.refusedEmpty)
  | crcSeed | crcByte => exact completesIn_next (inv_of_crcAcc_events_inputs h _ _ _)
  | encPing | encAck =>
    refine completesIn_next (inv_setTx h fun bytes hb => ?_)
    obtain rfl := Option.some.inj hb
    decide
  | encCmdrsp tag flags n params =>
    refine completesIn_next (inv_setTx h fun bytes hb => ?_)
    split at hb
    · exact buildCmdrsp_length_le hb
    · simp at hb
  | encData len payload =>
    refine completesIn_next (inv_setTx h fun bytes hb => ?_)
    split at hb
    · simp [buildData_length hb]
    · simp at hb

theorem runUnit_completesIn (d : Except Reject Instr) {s : State} (h : SafeState s) :
    CompletesIn Params.hardware (runUnit d s) := by
  cases d with
  | ok i => exact exec_completesIn i h
  | error r => exact completesIn_next h

theorem runEdge_completesIn (e : Edge) {s : State} (h : SafeState s) : CompletesIn Params.hardware (runEdge e s) := by
  cases hr : e.rst with
  | true => exact runEdge_rst hr s ▸ completesIn_next (inv_applyReset h)
  | false =>
    rw [runEdge_ops hr]
    exact completesIn_andThen (runUnit_completesIn _ h) fun s1 h1 =>
      completesIn_andThen (runUnit_completesIn _ h1) fun s2 h2 => runUnit_completesIn _ h2

theorem runWire_completesIn (bytes : List Byte) (rest : List Presented) {s : State} (h : SafeState s) :
    CompletesIn Params.hardware (runWire bytes rest s) := by
  cases bytes with
  | nil => exact completesIn_next (inv_inputs h rest)
  | cons b bs => exact runWire_cons b bs rest s ▸ exec_completesIn (.decByte b) (inv_inputs h _)

theorem runFrame_completesIn (bytes : List Byte) (rest : List Presented) {s : State} (h : SafeState s) :
    CompletesIn Params.hardware (runFrame bytes rest s) := by
  cases hd : decodeFrame Params.hardware bytes with
  | error r => exact runFrame_error hd ▸ runWire_completesIn bytes rest h
  | ok x => exact runFrame_ok hd ▸ exec_completesIn x.1 (inv_inputs h _)

/-- No input makes the block stop or leave the safe states. -/
theorem step_completesIn {s : State} (h : SafeState s) : CompletesIn Params.hardware (step s) := by
  have hc := inv_clearOutputs h
  cases hin : s.inputs with
  | nil => exact step_nothing hin ▸ completesIn_next hc
  | cons x rest =>
    cases x with
    | edge e => exact step_edge hin ▸ runEdge_completesIn e (inv_inputs hc rest)
    | wire bytes => exact step_wire hin ▸ runWire_completesIn bytes rest hc
    | frame bytes => exact step_frame hin ▸ runFrame_completesIn bytes rest hc

/-- Settles O55: every constraint of R6, evaluated. -/
theorem hardwareParametersMeetTheConstraints : Obligations.HardwareParametersMeetTheConstraints := hardware_ok

/-- Settles O38: the frames by induction over their bytes, the other operations by what they write. -/
theorem everyInstructionCompletesInSafeStates : Obligations.EveryInstructionCompletesInSafeStates :=
  fun i _ h => exec_completesIn i h

/-- Settles O39, by what is presented next. -/
theorem everyStepKeepsTheInvariant : Obligations.EveryStepKeepsTheInvariant :=
  fun _ h => step_completesIn h

end Sys2Proof.Machine

/-! ### A frame and its bytes -/

namespace Sys2Proof.Machine

section

variable {p : Params} {i : Instr} {bytes left : List Byte}

/-- A received byte run of the length its length field declares has that length field (R76). -/
theorem lenField_take {len : U16} {bytes : List Byte} (h : len.toNat ≤ bytes.length) :
    lenField (bytes.take len.toNat) = len := by
  simp [lenField, Nat.min_eq_left h]

/-- What the FRAMED decoder takes off the front of the bytes after the type byte (R72, R76). -/
theorem decodeFramed_front {maxLen : Nat} {mk : U16 → List Byte → Instr}
    (h : decodeFramed maxLen mk bytes = .ok (i, left)) :
    ∃ crc body, i = mk crc body ∧
      bytes = [lo (lenField body), hi (lenField body), lo crc, hi crc] ++ body ++ left := by
  unfold decodeFramed at h
  split at h
  · next l0 l1 tail =>
    split at h
    · simp at h
    · split at h
      · next c0 c1 rest =>
        split at h
        · simp at h
        · next hlen =>
          obtain ⟨rfl, rfl⟩ : _ = i ∧ _ = left := by simpa using h
          exact ⟨_, _, rfl, by simp [lenField_take (not_lt.mp hlen)]⟩
      · simp at h
  · simp at h

/-- What the frame decoder accepts is the encoding of the frame it answers, followed by the bytes it leaves. -/
theorem decodeFrame_front (h : decodeFrame p bytes = .ok (i, left)) :
    ∃ front, encode p i = .frame front ∧ bytes = front ++ left := by
  match bytes, h with
  | [], h => simp [decodeFrame] at h
  | b0 :: tail, h =>
    by_cases hb0 : b0 = p.startByte
    case neg => simp [decodeFrame, hb0] at h
    subst hb0
    match tail, h with
    | [], h => simp [decodeFrame] at h
    | b1 :: rest, h =>
      cases hk : frameKind p b1 with
      | none => simp [decodeFrame, hk] at h
      | some k =>
        obtain rfl := typeByte_of_frameKind hk
        cases k with
        | ack | nak | ackAbort | ping =>
          obtain ⟨rfl, rfl⟩ : _ = i ∧ rest = left := by simpa [decodeFrame, hk] using h
          exact ⟨_, rfl, rfl⟩
        | cmd | data =>
          obtain ⟨crc, body, rfl, rfl⟩ := decodeFramed_front (by simpa [decodeFrame, hk] using h)
          exact ⟨_, rfl, rfl⟩
        | pingRsp =>
          by_cases hlen : rest.length < p.pingRspBodyLen
          case pos => simp [decodeFrame, hk, hlen] at h
          obtain ⟨rfl, rfl⟩ : _ = i ∧ _ = left := by simpa [decodeFrame, hk, hlen] using h
          exact ⟨_, rfl, by simp [pingRspFrame, FrameKind.typeByte]⟩

/-- No frame is empty: each begins with its header (R71 to R73). -/
theorem encode_frame_ne_nil {front : List Byte} (h : encode p i = .frame front) : front ≠ [] := by
  rintro rfl
  cases i <;> simp [encode, bareFrame, framedFrame, framedHeader, pingRspFrame] at h

/-- Executing a frame is feeding its bytes (R60; log 2). -/
theorem exec_of_encode_frame (h : encode Params.hardware i = .frame bytes) (s : State) :
    exec i s = feed Params.hardware bytes s := by
  cases i <;> simp only [encode, Encoded.frame.injEq, reduceCtorEq] at h <;> subst h <;> rfl

end

end Sys2Proof.Machine

/-! ### Steps on the bytes of the transport -/

namespace Sys2Proof.Machine

/-- The registers and the buffer of `s` with other results on the outputs and another input to come. -/
def State.withIo (s : State) (events : List Event) (txData : List Byte) (encErr : Bool) (inputs : List Presented) :
    State := { s with events := events, txData := txData, encErr := encErr, inputs := inputs }

section

variable {p : Params} {b : Byte} {s t : State}

/-- The evaluation at Done reads no output and no input. -/
theorem evaluate_withIo (h : evaluate p s = .next t) :
    ∃ e, t = endFrame e s ∧ ∀ events txData encErr inputs,
      evaluate p (s.withIo events txData encErr inputs) = .next (endFrame e (s.withIo events txData encErr inputs)) := by
  have hok : ∀ events txData encErr inputs, frameOk p (s.withIo events txData encErr inputs) = frameOk p s :=
    fun _ _ _ _ => rfl
  unfold evaluate at h
  split at h
  · next hs => exact ⟨.rx, by simpa using h.symm, fun _ _ _ _ => by simp [evaluate, hok, hs]⟩
  · next hs => exact ⟨.rxErrorCrc, by simpa using h.symm, fun _ _ _ _ => by simp [evaluate, hok, hs]⟩
  · simp at h

/-- Each row of the transition table (R134) is what DEC.BYTE does: with `decByte_row`, the rows say all of DEC.BYTE where it
answers a next state. -/
theorem decByte_of_row (h : DecRow p b s t) : decByte p b s = .next t := by
  cases h with
  | marker hs hb ht => rw [decByte_start hs, decStart, if_pos hb, ht]
  | discard hs hb ht => rw [decByte_start hs, decStart, if_neg hb, ht]
  | bare hs k hk hf ht =>
    simp only [decByte_type hs, decType, hk, Option.map_some, hf, ht]
    exact evaluate_bare (s := { s with typ := b, st := .done }) hk hf
  | pingRsp hs hk ht => simp [decByte_type hs, decType, hk, FrameKind.format, ht]
  | framed hs k hk hf ht =>
    have hfmt : k.format = .framed := by rcases hf with rfl | rfl <;> rfl
    simp [decByte_type hs, decType, hk, hfmt, ht]
  | badType hs hk ht => simp [decByte_type hs, decType, hk, ht]
  | lenLow hs ht => rw [decByte_lenLow hs, decLenLow, ht]
  | lenHigh hs m hm hl ht => simp [decByte_lenHigh hs, decLenHigh, hm, not_lt.mpr hl, ht]
  | badLen hs m hm hl ht => simp [decByte_lenHigh hs, decLenHigh, hm, hl, ht]
  | crcLow hs ht => rw [decByte_crcLow hs, decCrcLow, ht]
  | crcHigh hs hl ht => rw [decByte_crcHigh hs, decCrcHigh, if_neg hl, ht]
  | empty hs hl he => rw [decByte_crcHigh hs, decCrcHigh, if_pos hl, he]
  | body hs n hn hi hlast ht => simp [decByte_data hs, decData, hn, bufWrite, hi, hlast, ht]
  | last hs n hn hi hlast he => simp [decByte_data hs, decData, hn, bufWrite, hi, hlast, he]

/-- DEC.BYTE gives one event and reads no output and no input: with others in their place it does the same (R61, R133). -/
theorem decByte_withIo (h : decByte p b s = .next t) :
    ∃ e, t.events = s.events ++ [e] ∧ ∀ events txData encErr inputs,
      decByte p b (s.withIo events txData encErr inputs) = .next (t.withIo (events ++ [e]) txData encErr inputs) := by
  cases decByte_row h with
  | marker hs hb ht => subst ht; exact ⟨_, rfl, fun _ _ _ _ => decByte_of_row (.marker hs hb rfl)⟩
  | discard hs hb ht => subst ht; exact ⟨_, rfl, fun _ _ _ _ => decByte_of_row (.discard hs hb rfl)⟩
  | bare hs k hk hf ht => subst ht; exact ⟨_, rfl, fun _ _ _ _ => decByte_of_row (.bare hs k hk hf rfl)⟩
  | pingRsp hs hk ht => subst ht; exact ⟨_, rfl, fun _ _ _ _ => decByte_of_row (.pingRsp hs hk rfl)⟩
  | framed hs k hk hf ht => subst ht; exact ⟨_, rfl, fun _ _ _ _ => decByte_of_row (.framed hs k hk hf rfl)⟩
  | badType hs hk ht => subst ht; exact ⟨_, rfl, fun _ _ _ _ => decByte_of_row (.badType hs hk rfl)⟩
  | lenLow hs ht => subst ht; exact ⟨_, rfl, fun _ _ _ _ => decByte_of_row (.lenLow hs rfl)⟩
  | lenHigh hs m hm hl ht => subst ht; exact ⟨_, rfl, fun _ _ _ _ => decByte_of_row (.lenHigh hs m hm hl rfl)⟩
  | badLen hs m hm hl ht => subst ht; exact ⟨_, rfl, fun _ _ _ _ => decByte_of_row (.badLen hs m hm hl rfl)⟩
  | crcLow hs ht => subst ht; exact ⟨_, rfl, fun _ _ _ _ => decByte_of_row (.crcLow hs rfl)⟩
  | crcHigh hs hl ht => subst ht; exact ⟨_, rfl, fun _ _ _ _ => decByte_of_row (.crcHigh hs hl rfl)⟩
  | body hs n hn hi hlast ht =>
    subst ht
    exact ⟨_, rfl, fun _ _ _ _ => decByte_of_row (.body hs n hn hi hlast rfl)⟩
  | empty hs hl he =>
    obtain ⟨e, rfl, hio⟩ := evaluate_withIo he
    exact ⟨e, rfl, fun events txData encErr inputs => decByte_of_row (.empty hs hl (hio events txData encErr inputs))⟩
  | last hs n hn hi hlast he =>
    obtain ⟨e, rfl, hio⟩ := evaluate_withIo he
    exact ⟨e, rfl, fun events txData encErr inputs =>
      decByte_of_row (.last hs n hn hi hlast (hio events txData encErr inputs))⟩

/-- No DEC.BYTE of a run changes what the client presents. -/
theorem feed_inputs {bytes : List Byte} (h : feed p bytes s = .next t) : t.inputs = s.inputs :=
  feed_keeps (P := fun u => u.inputs = s.inputs)
    (fun _ _ _ hu hstep => by obtain ⟨-, -, -, hin, -⟩ := decByte_frame hstep; exact hin.trans hu) rfl h

end

/-- In every state a step on bytes of the transport is DEC.BYTE of the first one (R11). -/
theorem step_wire_cons {s : State} {b : Byte} {bs : List Byte} {rest : List Presented}
    (h : s.inputs = .wire (b :: bs) :: rest) :
    step s = exec (.decByte b) { clearOutputs s with inputs := pushWire bs rest } :=
  (step_wire h).trans (runWire_cons b bs rest _)

/-- The step on a transport byte leaves the registers that DEC.BYTE leaves and shows its event alone (R11, R12). -/
theorem step_withIo {b : Byte} {s t : State} (h : decByte Params.hardware b s = .next t) :
    ∃ e, t.events = s.events ++ [e] ∧ ∀ events txData encErr bs rest,
      step (s.withIo events txData encErr (.wire (b :: bs) :: rest)) =
        .next (t.withIo [e] [] false (pushWire bs rest)) := by
  obtain ⟨e, he, hio⟩ := decByte_withIo h
  exact ⟨e, he, fun _ _ _ _ _ => (step_wire_cons rfl).trans (hio [] [] false _)⟩

theorem run_succ_of_step {s t : State} (h : step s = .next t) (k : Nat) :
    Sys2Proof.core.run (k + 1) s = Sys2Proof.core.run k t := by
  have hcore : Sys2Proof.core.step s = .next t := h
  simp [Host.Core.run, hcore]

/-- A run of transport bytes, step by step: after `k + 1` steps the registers are those that DEC.BYTE leaves after `k + 1`
bytes, the outputs show the event of the last of them, and the bytes after it are left to come. The bytes of the run may
be followed by others, `left`, on the same wire. -/
theorem run_wire (left : List Byte) (rest : List Presented) :
    ∀ (bytes : List Byte) (s t : State) (events : List Event) (txData : List Byte) (encErr : Bool),
      feed Params.hardware bytes s = .next t →
      ∃ given : List Event, t.events = s.events ++ given ∧ given.length = bytes.length ∧
        ∀ k < bytes.length, ∃ v e, feed Params.hardware (bytes.take (k + 1)) s = .next v ∧ given[k]? = some e ∧
          Sys2Proof.core.run (k + 1) (s.withIo events txData encErr (pushWire (bytes ++ left) rest)) =
            .next (v.withIo [e] [] false (pushWire (bytes.drop (k + 1) ++ left) rest))
  | [], s, t, _, _, _, h => by
    obtain rfl : s = t := by simpa using h
    exact ⟨[], by simp, rfl, by simp⟩
  | b :: bs, s, t, events, txData, encErr, h => by
    obtain ⟨u, hu, hbs⟩ := andThen_eq_next.mp (feed_cons _ b bs s ▸ h)
    obtain ⟨e, he, hstep⟩ := step_withIo hu
    obtain ⟨given, hgiven, hlen, hrun⟩ := run_wire left rest bs u t [e] [] false hbs
    refine ⟨e :: given, by simp [hgiven, he], by simp [hlen], fun k hk => ?_⟩
    have hfirst := run_succ_of_step (hstep events txData encErr (bs ++ left) rest)
    cases k with
    | zero => exact ⟨u, e, by simp [feed_cons, hu], rfl, hfirst 0⟩
    | succ k =>
      obtain ⟨v, e', hv, hk', hrun'⟩ := hrun k (by simpa using hk)
      exact ⟨v, e', by simpa [feed_cons, hu] using hv, by simpa using hk', (hfirst (k + 1)).trans hrun'⟩

/-- `run_wire` for a run with at least one byte, in the words of R11 and R12: all its steps leave what its bytes leave, and
`evt` after each step shows the event of that byte. -/
theorem run_nonempty_wire (left : List Byte) (rest : List Presented) {bytes : List Byte} {s t : State}
    (hne : bytes ≠ []) (hfeed : feed Params.hardware bytes s = .next t) (events : List Event) (txData : List Byte)
    (encErr : Bool) :
    ∃ given : List Event, t.events = s.events ++ given ∧ given.length = bytes.length ∧
      (∃ e, Sys2Proof.core.run bytes.length (s.withIo events txData encErr (.wire (bytes ++ left) :: rest)) =
        .next (t.withIo [e] [] false (pushWire left rest))) ∧
      ∀ k < bytes.length, ∃ v,
        Sys2Proof.core.run (k + 1) (s.withIo events txData encErr (.wire (bytes ++ left) :: rest)) = .next v ∧
          given[k]? = some (evtShown v) ∧ v.inputs = pushWire (bytes.drop (k + 1) ++ left) rest := by
  obtain ⟨given, hgiven, hlen, hrun⟩ := run_wire left rest bytes s t events txData encErr hfeed
  rw [pushWire_of_ne_nil (List.append_ne_nil_of_left_ne_nil hne left)] at hrun
  refine ⟨given, hgiven, hlen, ?_, fun k hk => ?_⟩
  · have hpos := List.length_pos_iff.mpr hne
    obtain ⟨v, e, hv, -, hall⟩ := hrun (bytes.length - 1) (by omega)
    rw [Nat.sub_add_cancel hpos] at hv hall
    obtain rfl : t = v := by simpa [hfeed] using hv
    exact ⟨e, by simpa using hall⟩
  · obtain ⟨v, e, -, he, hstep⟩ := hrun k hk
    exact ⟨_, hstep, he, rfl⟩

/-- Settles O48: a run of transport bytes and a refused frame are taken by the same rule. -/
theorem wireBytesAreConsumedInOrder : Obligations.WireBytesAreConsumedInOrder := by
  rintro s b bs rest (h | ⟨h, r, hr⟩)
  · exact step_wire_cons h
  · rw [step_frame h, runFrame_error hr, runWire_cons]

/-- Settles O49, from `run_nonempty_wire` with nothing after the run. -/
theorem runningTheWireIsFeedingItsBytes : Obligations.RunningTheWireIsFeedingItsBytes := by
  intro s t bytes rest hne hin hfeed
  obtain ⟨given, hgiven, hlen, ⟨e, hall⟩, heach⟩ :=
    run_nonempty_wire [] rest hne hfeed s.events s.txData s.encErr
  have hs : s.withIo s.events s.txData s.encErr (.wire (bytes ++ []) :: rest) = s := by
    rw [List.append_nil, ← hin]; rfl
  rw [hs] at hall heach
  refine ⟨given, hgiven, hlen, ⟨_, hall, rfl, rfl, rfl, rfl, rfl, rfl, rfl, rfl, rfl⟩, fun k hk => ?_⟩
  simpa only [List.append_nil] using heach k hk

/-- Settles O57: the frame's bytes stand at the front of the run (`decodeFrame_front`), and `run_nonempty_wire` takes them
one by one. -/
theorem frameStepIsTheStepsOfItsBytes : Obligations.FrameStepIsTheStepsOfItsBytes := by
  intro s t bytes left rest i n hdec hn hin hstep
  obtain ⟨front, henc, rfl⟩ := decodeFrame_front hdec
  obtain rfl : n = front.length := by simp at hn; omega
  have hfeed : feed Params.hardware front (s.withIo [] [] false (pushWire left rest)) = .next t := by
    rw [step_frame hin, runFrame_ok hdec, exec_of_encode_frame henc] at hstep
    exact hstep
  obtain ⟨given, hgiven, hlen, ⟨e, hall⟩, heach⟩ :=
    run_nonempty_wire left rest (encode_frame_ne_nil henc) hfeed s.events s.txData s.encErr
  obtain rfl : t.events = given := hgiven
  refine ⟨hlen, ⟨_, hall, (feed_inputs hfeed).symm, rfl, rfl, rfl, rfl, rfl, rfl, rfl, rfl⟩, fun k hk => ?_⟩
  obtain ⟨v, hv, hshown, -⟩ := heach k hk
  exact ⟨v, hv, hshown⟩

end Sys2Proof.Machine


/-! ### Port codes -/

namespace Sys2Proof.Machine

/-- The codes 5 to 7 of `evt` are never shown (R90). -/
theorem Event.code_toNat_lt (e : Event) : e.code.toNat < 5 := by
  cases e <;> simp [Event.code]

/-- Settles O54: the two tables of codes are read off the definitions; the bound is `Event.code_toNat_lt`. -/
theorem codesOfStatesAndEvents : Obligations.CodesOfStatesAndEvents :=
  ⟨rfl, rfl, Event.code_toNat_lt⟩

end Sys2Proof.Machine

/-! ### DEC.BYTE in safe states for all parameters, and frames as their bytes -/

namespace Sys2Proof.Machine

/-- Settles O37: DEC.BYTE completes under the invariant (`decByte_completes`), and each row of the transition table
keeps it (`decByte_keeps_inv`). -/
theorem decByteKeepsTheInvariantForAllParams : Obligations.DecByteKeepsTheInvariantForAllParams :=
  fun _ hp _ b h => decByte_completesIn hp b h

/-- Settles O30, from `exec_of_encode_frame`, which goes through the seven frame types. -/
theorem frameRunsAsItsBytes : Obligations.FrameRunsAsItsBytes :=
  fun _ _ s h => exec_of_encode_frame h s

end Sys2Proof.Machine

/-! ### What an instruction of each unit does, and that the units share no state -/

namespace Sys2Proof.Machine

section

variable {p : Params} {i : Instr} {bytes : List Byte} {s t : State}

/-- An operation of CRCGEN writes `crc_acc`, from its old value alone (R106, R107). -/
theorem exec_of_crcgen (h : unitOf i = .crcgen) :
    ∃ f : U16 → U16, ∀ s, exec i s = .next { s with crcAcc := f s.crcAcc } := by
  cases i with
  | crcSeed seed => exact ⟨fun _ => seed, fun _ => rfl⟩
  | crcByte b => exact ⟨fun c => crc16Step Params.hardware c b, fun _ => rfl⟩
  | _ => exact absurd h (by simp [unitOf])

/-- An operation of ENC sets the transmit result, from its operands alone (R176). -/
theorem exec_of_enc (h : unitOf i = .enc) : ∃ r, ∀ s, exec i s = .next (setTx r s) := by
  cases i with
  | encPing | encAck | encCmdrsp | encData => exact ⟨_, fun _ => rfl⟩
  | _ => exact absurd h (by simp [unitOf])

theorem feed_singleton (p : Params) (b : Byte) (s : State) : feed p [b] s = decByte p b s :=
  andThen_pure (decByte p b s)

/-- Every instruction of DEC but DEC.CLEAR is a run of bytes through DEC.BYTE (R60, R120). -/
theorem exec_of_dec (h : unitOf i = .dec) : i = .decClear ∨ ∃ bytes, ∀ s, exec i s = feed Params.hardware bytes s := by
  cases i with
  | ack | nak | ackAbort | cmd | data | ping | pingRsp => exact .inr ⟨_, exec_of_encode_frame rfl⟩
  | decByte b => exact .inr ⟨[b], fun s => (feed_singleton Params.hardware b s).symm⟩
  | decClear => exact .inl rfl
  | _ => exact absurd h (by simp [unitOf])

/-- No run of bytes touches CRCGEN, ENC, what the client presents or the count of resets. -/
theorem feed_frame (h : feed p bytes s = .next t) :
    t.crcAcc = s.crcAcc ∧ t.txData = s.txData ∧ t.encErr = s.encErr ∧ t.inputs = s.inputs ∧ t.resets = s.resets := by
  refine feed_keeps (P := fun u => u.crcAcc = s.crcAcc ∧ u.txData = s.txData ∧ u.encErr = s.encErr ∧
    u.inputs = s.inputs ∧ u.resets = s.resets) (fun b u v hu hv => ?_) ⟨rfl, rfl, rfl, rfl, rfl⟩ h
  obtain ⟨hcrc, htx, herr, hin, hres⟩ := decByte_frame hv
  simpa only [hcrc, htx, herr, hin, hres] using hu

/-- The frame of DEC's instructions (R61). -/
theorem exec_frame_of_dec (hi : unitOf i = .dec) (h : exec i s = .next t) :
    t.crcAcc = s.crcAcc ∧ t.txData = s.txData ∧ t.encErr = s.encErr ∧ t.inputs = s.inputs ∧ t.resets = s.resets := by
  rcases exec_of_dec hi with rfl | ⟨bytes, hfeed⟩
  · obtain rfl : { s with st := .start } = t := by simpa [exec, execDecClear] using h
    exact ⟨rfl, rfl, rfl, rfl, rfl⟩
  · exact feed_frame (hfeed s ▸ h)

end

/-- Settles O43, unit by unit. -/
theorem unitsShareNoState : Obligations.UnitsShareNoState := by
  intro i s t h
  cases hi : unitOf i with
  | crcgen =>
    obtain ⟨f, hf⟩ := exec_of_crcgen hi
    obtain rfl : { s with crcAcc := f s.crcAcc } = t := by simpa [hf] using h
    simp
  | enc =>
    obtain ⟨r, hr⟩ := exec_of_enc hi
    obtain rfl : setTx r s = t := by simpa [hr] using h
    simp
  | dec =>
    obtain ⟨hcrc, htx, herr, hin, hres⟩ := exec_frame_of_dec hi h
    exact ⟨fun _ => hcrc, fun _ => ⟨htx, herr⟩, fun hne => absurd rfl hne, hin, hres⟩

end Sys2Proof.Machine

/-! ### Operations of different units commute -/

namespace Sys2Proof.Machine

/-- The two operations, one after the other, answer the same in both orders, stops included. -/
def OpsCommute (f g : State → Result) : Prop := ∀ s, andThen (f s) g = andThen (g s) f

theorem OpsCommute.symm {f g : State → Result} (h : OpsCommute f g) : OpsCommute g f := fun s => (h s).symm

/-- What commutes with two operations commutes with one after the other. -/
theorem OpsCommute.andThen_right {f g k : State → Result} (hg : OpsCommute f g) (hk : OpsCommute f k) :
    OpsCommute f fun s => andThen (g s) k := fun s =>
  calc andThen (f s) (fun u => andThen (g u) k)
      = andThen (andThen (f s) g) k := (andThen_assoc _ _ _).symm
    _ = andThen (andThen (g s) f) k := by rw [hg s]
    _ = andThen (g s) (fun u => andThen (f u) k) := andThen_assoc _ _ _
    _ = andThen (g s) (fun u => andThen (k u) f) := by rw [funext hk]
    _ = andThen (andThen (g s) k) f := (andThen_assoc _ _ _).symm

/-- What commutes with each DEC.BYTE commutes with a run of bytes. -/
theorem OpsCommute.feed_right {p : Params} {f : State → Result} (h : ∀ b, OpsCommute f (decByte p b)) :
    ∀ bytes, OpsCommute f (feed p bytes)
  | [] => fun s => andThen_pure (f s)
  | b :: bytes => (h b).andThen_right (OpsCommute.feed_right h bytes)

/-- The operation that puts what CRCGEN and ENC hold through the given functions, and leaves DEC's state alone. -/
def updateOthers (crc : U16 → U16) (tx : List Byte → List Byte) (err : Bool → Bool) (s : State) : Result :=
  .next { s with crcAcc := crc s.crcAcc, txData := tx s.txData, encErr := err s.encErr }

/-- Every operation of CRCGEN or ENC is such an update. -/
theorem exec_eq_updateOthers {i : Instr} (h : unitOf i ≠ .dec) : ∃ crc tx err, exec i = updateOthers crc tx err := by
  cases hi : unitOf i with
  | crcgen =>
    obtain ⟨f, hf⟩ := exec_of_crcgen hi
    exact ⟨f, id, id, funext hf⟩
  | enc =>
    obtain ⟨r, hr⟩ := exec_of_enc hi
    refine ⟨id, fun _ => r.getD [], fun _ => r.isNone, funext fun s => (hr s).trans ?_⟩
    cases r <;> rfl
  | dec => exact absurd hi h

section

variable {crc : U16 → U16} {tx : List Byte → List Byte} {err : Bool → Bool} {p : Params} {b : Byte}

/-- The evaluation at Done reads DEC's state alone (R132). -/
theorem updateOthers_evaluate : OpsCommute (updateOthers crc tx err) (evaluate p) := by
  intro s
  have hok : frameOk p { s with crcAcc := crc s.crcAcc, txData := tx s.txData, encErr := err s.encErr } =
    frameOk p s := rfl
  simp only [updateOthers, andThen_next, evaluate, hok]
  cases frameOk p s with
  | error f => rfl
  | ok good => cases good <;> rfl

theorem updateOthers_decStart : OpsCommute (updateOthers crc tx err) (decStart p b) := by
  intro s
  simp only [updateOthers, andThen_next, decStart]
  split <;> rfl

theorem updateOthers_decType : OpsCommute (updateOthers crc tx err) (decType p b) := by
  intro s
  simp only [updateOthers, andThen_next, decType]
  split
  · exact updateOthers_evaluate { s with typ := b, st := .done }
  all_goals rfl

theorem updateOthers_decLenHigh : OpsCommute (updateOthers crc tx err) (decLenHigh p b) := by
  intro s
  simp only [updateOthers, andThen_next, decLenHigh]
  cases maxLen p s.typ with
  | none => rfl
  | some m => dsimp only; split <;> rfl

theorem updateOthers_decCrcHigh : OpsCommute (updateOthers crc tx err) (decCrcHigh p b) := by
  intro s
  simp only [updateOthers, andThen_next, decCrcHigh]
  split
  · exact updateOthers_evaluate { s with crcRx := le16 (lo s.crcRx) b, idx := 0#16, st := .done }
  · rfl

theorem updateOthers_decData : OpsCommute (updateOthers crc tx err) (decData p b) := by
  intro s
  simp only [updateOthers, andThen_next, decData, bufWrite]
  cases need p s.typ s.len with
  | none => rfl
  | some n =>
    by_cases hi : s.idx.toNat < p.bufSize
    · simp only [hi, if_true]
      split
      · exact updateOthers_evaluate
          { s with buf := Memory.put s.idx.toNat b s.buf, idx := s.idx + 1#16, st := .done }
      · rfl
    · simp only [hi, if_false]; rfl

/-- The update leaves `st` alone, so both orders take the rule of the same parser state. -/
theorem updateOthers_decByte_of_rule {s : State} {rule : State → Result}
    (hrule : ∀ u : State, u.st = s.st → decByte p b u = rule u) (hcomm : OpsCommute (updateOthers crc tx err) rule) :
    andThen (updateOthers crc tx err s) (decByte p b) = andThen (decByte p b s) (updateOthers crc tx err) := by
  rw [hrule s rfl, ← hcomm s]
  exact hrule _ rfl

/-- DEC.BYTE commutes with what the other units do, in every parser state (R61). -/
theorem updateOthers_decByte : OpsCommute (updateOthers crc tx err) (decByte p b) := by
  intro s
  cases hs : s.st with
  | start => exact updateOthers_decByte_of_rule (fun _ hu => decByte_start (hu.trans hs)) updateOthers_decStart
  | type => exact updateOthers_decByte_of_rule (fun _ hu => decByte_type (hu.trans hs)) updateOthers_decType
  | lenLow => exact updateOthers_decByte_of_rule (fun _ hu => decByte_lenLow (hu.trans hs)) fun _ => rfl
  | lenHigh => exact updateOthers_decByte_of_rule (fun _ hu => decByte_lenHigh (hu.trans hs)) updateOthers_decLenHigh
  | crcLow => exact updateOthers_decByte_of_rule (fun _ hu => decByte_crcLow (hu.trans hs)) fun _ => rfl
  | crcHigh => exact updateOthers_decByte_of_rule (fun _ hu => decByte_crcHigh (hu.trans hs)) updateOthers_decCrcHigh
  | data => exact updateOthers_decByte_of_rule (fun _ hu => decByte_data (hu.trans hs)) updateOthers_decData
  | done => exact updateOthers_decByte_of_rule (fun _ hu => decByte_done (hu.trans hs)) fun _ => rfl

end

/-- An operation of CRCGEN or ENC commutes with every instruction of DEC: a run of bytes, or DEC.CLEAR. -/
theorem opsCommute_exec_dec {i j : Instr} (hi : unitOf i ≠ .dec) (hj : unitOf j = .dec) :
    OpsCommute (exec i) (exec j) := by
  obtain ⟨crc, tx, err, hupd⟩ := exec_eq_updateOthers hi
  rw [hupd]
  rcases exec_of_dec hj with rfl | ⟨bytes, hfeed⟩
  · exact fun _ => rfl
  · rw [funext hfeed]
    exact OpsCommute.feed_right (fun _ => updateOthers_decByte) bytes

/-- An operation of CRCGEN commutes with one of ENC: they write different registers and read none of the other's. -/
theorem opsCommute_exec_crcgen_enc {i j : Instr} (hi : unitOf i = .crcgen) (hj : unitOf j = .enc) :
    OpsCommute (exec i) (exec j) := by
  obtain ⟨f, hf⟩ := exec_of_crcgen hi
  obtain ⟨r, hr⟩ := exec_of_enc hj
  rw [funext hf, funext hr]
  intro s
  cases r <;> rfl

/-- Settles O44, by the units of the two instructions. -/
theorem operationsOfDifferentUnitsCommute : Obligations.OperationsOfDifferentUnitsCommute := by
  intro i j s hne
  cases hi : unitOf i with
  | dec => exact (opsCommute_exec_dec (fun hj => hne (hi.trans hj.symm)) hi).symm s
  | crcgen =>
    cases hj : unitOf j with
    | crcgen => exact absurd (hi.trans hj.symm) hne
    | dec => exact opsCommute_exec_dec (by simp [hi]) hj s
    | enc => exact opsCommute_exec_crcgen_enc hi hj s
  | enc =>
    cases hj : unitOf j with
    | enc => exact absurd (hi.trans hj.symm) hne
    | dec => exact opsCommute_exec_dec (by simp [hi]) hj s
    | crcgen => exact (opsCommute_exec_crcgen_enc hj hi).symm s

end Sys2Proof.Machine

/-! ### Decoding undoes encoding -/

namespace Sys2Proof.Machine

section

variable {i : Instr} {bytes left : List Byte} {maxLen : Nat} {mk : U16 → List Byte → Instr}

/-- The FRAMED decoder reads back the fields of a body within the limit and leaves the bytes after it (R72, R76, R77). -/
theorem decodeFramed_of_fields (crc : U16) {body : List Byte} (rest : List Byte) (hl : body.length ≤ maxLen)
    (h16 : maxLen < 2 ^ 16) :
    decodeFramed maxLen mk ([lo (lenField body), hi (lenField body), lo crc, hi crc] ++ body ++ rest) =
      .ok (mk crc body, rest) := by
  simp [decodeFramed, lenField_toNat (lt_of_le_of_lt hl h16), not_lt.mpr hl]

/-- A frame that the FRAMED decoder answers has a body within the limit (R85). -/
theorem decodeFramed_body_le {crc : U16} {body : List Byte} (hmk : ∀ {c b c' b'}, mk c b = mk c' b' → b = b')
    (h : decodeFramed maxLen mk bytes = .ok (mk crc body, left)) : body.length ≤ maxLen := by
  unfold decodeFramed at h
  split at h
  · split at h
    · simp at h
    · next hmax =>
      split at h
      · split at h
        · simp at h
        · obtain ⟨hfields, -⟩ := Prod.mk.inj (Except.ok.inj h)
          exact hmk hfields ▸ (List.length_take_le _ _).trans (not_lt.mp hmax)
      · simp at h
  · simp at h

/-! ### The frame decoder on an encoded frame, by format -/

theorem decodeFrame_cmdFrame (crc : U16) (body rest : List Byte) :
    decodeFrame Params.hardware (framedFrame Params.hardware Params.hardware.typeCmd crc body ++ rest) =
      decodeFramed 32 .cmd ([lo (lenField body), hi (lenField body), lo crc, hi crc] ++ body ++ rest) := rfl

theorem decodeFrame_dataFrame (crc : U16) (payload rest : List Byte) :
    decodeFrame Params.hardware (framedFrame Params.hardware Params.hardware.typeData crc payload ++ rest) =
      decodeFramed 256 .data ([lo (lenField payload), hi (lenField payload), lo crc, hi crc] ++ payload ++ rest) := rfl

theorem decodeFrame_pingRspFrame (body rest : List Byte) :
    decodeFrame Params.hardware (pingRspFrame Params.hardware body ++ rest) =
      if (body ++ rest).length < 8 then .error .truncated
      else .ok (.pingRsp ((body ++ rest).take 8), (body ++ rest).drop 8) := rfl

/-- The frame decoder reads a well-formed frame off its encoding and leaves the bytes after it. -/
theorem decodeFrame_encode (hwf : wellFormed Params.hardware i = true) (henc : encode Params.hardware i = .frame bytes)
    (rest : List Byte) : decodeFrame Params.hardware (bytes ++ rest) = .ok (i, rest) := by
  cases i with
  | ack | nak | ackAbort | ping => obtain rfl := Encoded.frame.inj henc; rfl
  | cmd crc body =>
    obtain rfl := Encoded.frame.inj henc
    rw [decodeFrame_cmdFrame]
    exact decodeFramed_of_fields crc rest (wellFormed_cmd.mp hwf) (by decide)
  | data crc payload =>
    obtain rfl := Encoded.frame.inj henc
    rw [decodeFrame_dataFrame]
    exact decodeFramed_of_fields crc rest (wellFormed_data.mp hwf) (by decide)
  | pingRsp body =>
    obtain rfl := Encoded.frame.inj henc
    have hlen : body.length = 8 := wellFormed_pingRsp.mp hwf
    simp [decodeFrame_pingRspFrame, ← hlen]
  | _ => cases henc

/-- Decoding the words of a well-formed instruction gives it back, with nothing left. -/
theorem decode_encode (hwf : wellFormed Params.hardware i = true) :
    decode Params.hardware (encode Params.hardware i) = .ok (i, []) := by
  cases i with
  | ack | nak | ackAbort | cmd | data | ping | pingRsp =>
    simpa [encode, decode] using decodeFrame_encode hwf rfl []
  | crcSeed | decByte | decClear | encPing | encAck => rfl
  | crcByte b => simp [encode, decode, decodeCrc, Except.map]
  | encCmdrsp tag flags n params =>
    simp [encode, decode, decodeEnc, Except.map, ← wellFormed_encCmdrsp.mp hwf]
  | encData len payload =>
    simp [encode, decode, decodeEnc, Except.map, ← wellFormed_encData.mp hwf]

/-- What the frame decoder accepts is within the limits of its format (R85). -/
theorem wellFormed_of_decodeFrame (h : decodeFrame Params.hardware bytes = .ok (i, left)) :
    wellFormed Params.hardware i = true := by
  obtain ⟨front, henc, rfl⟩ := decodeFrame_front h
  cases i with
  | ack | nak | ackAbort | ping => rfl
  | cmd crc body =>
    obtain rfl := Encoded.frame.inj henc
    rw [decodeFrame_cmdFrame] at h
    exact wellFormed_cmd.mpr (decodeFramed_body_le (fun heq => (Instr.cmd.inj heq).2) h)
  | data crc payload =>
    obtain rfl := Encoded.frame.inj henc
    rw [decodeFrame_dataFrame] at h
    exact wellFormed_data.mpr (decodeFramed_body_le (fun heq => (Instr.data.inj heq).2) h)
  | pingRsp body =>
    obtain rfl := Encoded.frame.inj henc
    rw [decodeFrame_pingRspFrame] at h
    split at h
    · simp at h
    · next hlen =>
      obtain ⟨hbody, -⟩ : (body ++ left).take 8 = body ∧ _ := by simpa using h
      exact wellFormed_pingRsp.mpr (by rw [← hbody, List.length_take, min_eq_left (not_lt.mp hlen)]; rfl)
  | _ => cases henc

end

/-- Settles O51: the frames by `decodeFrame_encode`, the operations by their ports. -/
theorem decodeOfEncodeIsTheInstruction : Obligations.DecodeOfEncodeIsTheInstruction :=
  fun _ hwf => ⟨decode_encode hwf, fun _ rest henc => decodeFrame_encode hwf henc rest⟩

/-- Settles O52: the limits were checked by the decoder, and `decodeFrame_front` says which bytes it took. -/
theorem decodedFrameIsItsEncoding : Obligations.DecodedFrameIsItsEncoding :=
  fun _ _ _ h => ⟨wellFormed_of_decodeFrame h, decodeFrame_front h⟩

/-- Settles O53: each word is fixed, and the decoders compute on it. -/
theorem wordsOfTheSpecDecode : Obligations.WordsOfTheSpecDecode := by
  refine ⟨?_, ?_, ?_, ?_, ?_, ?_, ?_, ?_⟩ <;> decide

end Sys2Proof.Machine

/-! ### The operations of one edge -/

namespace Sys2Proof.Machine

section

variable {d d' : Except Reject Instr} {s t : State}

theorem runOps_cons (i : Instr) (ops : List Instr) (s : State) : runOps (i :: ops) s = andThen (exec i s) (runOps ops) :=
  rfl

theorem runOps_append : ∀ (xs ys : List Instr) (s : State),
    runOps (xs ++ ys) s = andThen (runOps xs s) (runOps ys)
  | [], _, _ => rfl
  | i :: xs, ys, s => by
    rw [List.cons_append, runOps_cons, runOps_cons, andThen_assoc, funext (runOps_append xs ys)]

/-- What a unit does at an edge is the sequence of the operations its inputs select: one or none (R89). -/
theorem runOps_selected (d : Except Reject Instr) : runOps (selected d) = runUnit d := by
  funext s
  cases d with
  | ok i => exact andThen_pure (exec i s)
  | error r => rfl

/-- The operations that three ports select, one after the other. -/
theorem runOps_selected_three (d d' d'' : Except Reject Instr) (s : State) :
    runOps (selected d ++ selected d' ++ selected d'') s =
      andThen (runUnit d s) fun u => andThen (runUnit d' u) (runUnit d'') := by
  simp only [runOps_append, andThen_assoc, runOps_selected]

/-- An edge without `rst` is the operations of its three ports, in the order CRCGEN, DEC, ENC (R90). -/
theorem runEdge_eq_runOps {e : Edge} (h : e.rst = false) (s : State) :
    runEdge e s = runOps (selected (decodeCrc e.crc) ++ selected (decodeDec e.dec) ++
      selected (decodeEnc Params.hardware e.enc)) s :=
  (runEdge_ops h s).trans (runOps_selected_three _ _ _ s).symm

/-! ### The order of the units does not show -/

/-- What the ports of two units select commutes (R61). -/
theorem opsCommute_runUnit (h : ∀ i j, d = .ok i → d' = .ok j → unitOf i ≠ unitOf j) :
    OpsCommute (runUnit d) (runUnit d') := by
  intro s
  cases d with
  | error r => exact (andThen_pure (runUnit d' s)).symm
  | ok i =>
    cases d' with
    | error r => exact andThen_pure (exec i s)
    | ok j => exact operationsOfDifferentUnitsCommute i j s (h i j rfl rfl)

theorem opsCommute_crc_dec (c : CrcIn) (d : DecIn) : OpsCommute (runUnit (decodeCrc c)) (runUnit (decodeDec d)) :=
  opsCommute_runUnit fun i j hi hj => by simp [unitOf_decodeCrc hi, unitOf_decodeDec hj]

theorem opsCommute_crc_enc (c : CrcIn) (p : Params) (e : EncIn) :
    OpsCommute (runUnit (decodeCrc c)) (runUnit (decodeEnc p e)) :=
  opsCommute_runUnit fun i j hi hj => by simp [unitOf_decodeCrc hi, unitOf_decodeEnc hj]

theorem opsCommute_dec_enc (d : DecIn) (p : Params) (e : EncIn) :
    OpsCommute (runUnit (decodeDec d)) (runUnit (decodeEnc p e)) :=
  opsCommute_runUnit fun i j hi hj => by simp [unitOf_decodeDec hi, unitOf_decodeEnc hj]

/-- Three operations that commute pairwise give the same in the reverse order. -/
theorem OpsCommute.reverse {f g k : State → Result} (hfg : OpsCommute f g) (hfk : OpsCommute f k)
    (hgk : OpsCommute g k) (s : State) :
    andThen (f s) (fun u => andThen (g u) k) = andThen (k s) fun u => andThen (g u) f :=
  calc andThen (f s) (fun u => andThen (g u) k)
      = andThen (andThen (g s) k) f := hfg.andThen_right hfk s
    _ = andThen (andThen (k s) g) f := by rw [hgk s]
    _ = andThen (k s) (fun u => andThen (g u) f) := andThen_assoc _ _ _

/-! ### The codes that select no operation -/

theorem selected_decodeCrc_eq_nil (c : CrcIn) : selected (decodeCrc c) = [] ↔ c.op ∈ [0#2, 3#2] := by
  obtain ⟨op, din⟩ := c
  have hop : op = 0#2 ∨ op = 1#2 ∨ op = 2#2 ∨ op = 3#2 := by revert op; decide
  rcases hop with rfl | rfl | rfl | rfl <;> simp [decodeCrc, selected]

theorem selected_decodeDec_eq_nil (d : DecIn) : selected (decodeDec d) = [] ↔ d.op ∈ [0#2, 3#2] := by
  obtain ⟨op, rxByte⟩ := d
  have hop : op = 0#2 ∨ op = 1#2 ∨ op = 2#2 ∨ op = 3#2 := by revert op; decide
  rcases hop with rfl | rfl | rfl | rfl <;> simp [decodeDec, selected]

theorem selected_decodeEnc_eq_nil (p : Params) (e : EncIn) :
    selected (decodeEnc p e) = [] ↔ e.op ∈ [0#3, 5#3, 6#3, 7#3] := by
  obtain ⟨op, tag, flags, n, params, len, payload⟩ := e
  have hop : op = 0#3 ∨ op = 1#3 ∨ op = 2#3 ∨ op = 3#3 ∨ op = 4#3 ∨ op = 5#3 ∨ op = 6#3 ∨ op = 7#3 := by
    revert op; decide
  rcases hop with rfl | rfl | rfl | rfl | rfl | rfl | rfl | rfl <;> simp [decodeEnc, selected]

end

/-- Settles O46: the edge is its selected operations, and the three units commute pairwise. -/
theorem edgePerformsOneOperationPerUnit : Obligations.EdgePerformsOneOperationPerUnit := by
  intro s e rest hin hrst
  refine ⟨(step_edge hin).trans (runEdge_eq_runOps hrst _), ?_, selected_decodeCrc_eq_nil _,
    selected_decodeDec_eq_nil _, selected_decodeEnc_eq_nil _ _⟩
  rw [step_edge hin, runEdge_ops hrst, (opsCommute_crc_dec _ _).reverse (opsCommute_crc_enc _ _ _)
    (opsCommute_dec_enc _ _ _), runOps_selected_three]

/-- Settles O47: an edge that selects no operation is no operation after the outputs are cleared. -/
theorem nopAndReservedCodesChangeNothing : Obligations.NopAndReservedCodesChangeNothing := by
  refine ⟨fun s e rest hin hrst hcrc hdec henc => ?_, fun s hin => step_nothing hin⟩
  rw [step_edge hin, runEdge_eq_runOps hrst, (selected_decodeCrc_eq_nil _).mpr hcrc,
    (selected_decodeDec_eq_nil _).mpr hdec, (selected_decodeEnc_eq_nil _ _).mpr henc]
  rfl

/-! ### A presented encoding -/

/-- A port's decoding leaves no bytes. -/
theorem ok_of_map_pair {d : Except Reject Instr} {i : Instr} {left : List Byte}
    (h : (d.map fun j => (j, ([] : List Byte))) = .ok (i, left)) : d = .ok i ∧ left = [] := by
  cases d with
  | error r => cases h
  | ok j => cases h; exact ⟨rfl, rfl⟩

/-- Settles O45, by where the instruction stands: on the wire, or on a port beside two NOPs. -/
theorem stepRunsTheDecodedInstruction : Obligations.StepRunsTheDecodedInstruction := by
  intro s c i left rest hin hdec
  cases c with
  | frame bytes => rw [step_frame hin, runFrame_ok hdec]
  | crc c =>
    obtain ⟨hi, rfl⟩ := ok_of_map_pair hdec
    rw [step_edge hin, runEdge_ops rfl, hi]
    exact andThen_pure _
  | dec d =>
    obtain ⟨hi, rfl⟩ := ok_of_map_pair hdec
    rw [step_edge hin, runEdge_ops rfl, hi]
    exact andThen_pure _
  | enc e =>
    obtain ⟨hi, rfl⟩ := ok_of_map_pair hdec
    rw [step_edge hin, runEdge_ops rfl, hi]
    rfl

end Sys2Proof.Machine

/-! ### What the output ports show after an edge -/

namespace Sys2Proof.Machine

section

variable {d : Except Reject Instr} {s t : State}

/-- What a unit other than DEC does at an edge leaves `st` and the events alone (R61). -/
theorem runUnit_keeps_st_events (hd : ∀ i, d = .ok i → unitOf i ≠ .dec) (h : runUnit d s = .next t) :
    t.st = s.st ∧ t.events = s.events := by
  cases d with
  | error r => cases h; exact ⟨rfl, rfl⟩
  | ok i =>
    obtain ⟨-, -, hdec, -⟩ := unitsShareNoState i s t h
    obtain ⟨hst, -, -, -, -, -, hev⟩ := hdec (hd i rfl)
    exact ⟨hst, hev⟩

/-- What a unit other than ENC does at an edge leaves the transmit ports alone (R61). -/
theorem runUnit_keeps_tx (hd : ∀ i, d = .ok i → unitOf i ≠ .enc) (h : runUnit d s = .next t) :
    t.txData = s.txData ∧ t.encErr = s.encErr := by
  cases d with
  | error r => cases h; exact ⟨rfl, rfl⟩
  | ok i =>
    obtain ⟨-, henc, -⟩ := unitsShareNoState i s t h
    exact henc (hd i rfl)

/-- The operations that `dec_op` selects (R89). -/
theorem decodeDec_ok {c : DecIn} {i : Instr} (h : decodeDec c = .ok i) : i = .decByte c.rxByte ∨ i = .decClear := by
  unfold decodeDec at h
  split at h <;> simp at h <;> simp [← h]

/-- At an edge without a DEC.BYTE, DEC gives no event (R90). -/
theorem runUnit_dec_events {c : DecIn} (hno : ∀ b, decodeDec c ≠ .ok (.decByte b))
    (h : runUnit (decodeDec c) s = .next t) : t.events = s.events := by
  cases hd : decodeDec c with
  | error r => rw [hd] at h; cases h; rfl
  | ok i =>
    rcases decodeDec_ok hd with rfl | rfl
    · exact absurd hd (hno _)
    · rw [hd] at h; cases h; rfl

/-- The results of a step on an edge without `rst`, DEC's operation taken first: it sees the registers as they stood. -/
theorem step_edge_dec_first {e : Edge} {rest : List Presented} (hin : s.inputs = .edge e :: rest)
    (hrst : e.rst = false) (h : step s = .next t) :
    ∃ u v, runUnit (decodeDec e.dec) (s.withIo [] [] false rest) = .next u ∧ runUnit (decodeCrc e.crc) u = .next v ∧
      runUnit (decodeEnc Params.hardware e.enc) v = .next t := by
  rw [step_edge hin, runEdge_ops hrst, ← andThen_assoc, opsCommute_crc_dec] at h
  obtain ⟨v, hv, ht⟩ := andThen_eq_next.mp h
  obtain ⟨u, hu, hv⟩ := andThen_eq_next.mp hv
  exact ⟨u, v, hu, hv, ht⟩

/-! ### The transmit ports -/

/-- An encoder operation gives the same result in every state, and its length fits the port `tx_len` (R90, R172). -/
theorem exec_enc_tx {k : Instr} (hk : unitOf k = .enc) :
    ∃ tx err, tx.length < 64 ∧ ∀ s, ∃ t, exec k s = .next t ∧ t.txData = tx ∧ t.encErr = err := by
  obtain ⟨r, hr⟩ := exec_of_enc hk
  -- the result in the state after reset bounds the result in every state, since it is the same
  have hsafe : SafeState State.reset := inv_of_start reset_st reset_buf_wf (by simp) (by simp)
  obtain ⟨t, ht, hinv⟩ := exec_completesIn k hsafe
  obtain rfl : setTx r State.reset = t := by simpa [hr] using ht
  have hlen : (setTx r State.reset).txData.length ≤ 38 := hinv.txBound
  refine ⟨(setTx r State.reset).txData, (setTx r State.reset).encErr, by omega, fun s => ⟨_, hr s, ?_⟩⟩
  cases r <;> exact ⟨rfl, rfl⟩

/-! ### The port `evt` -/

theorem evtShown_of_no_events (h : t.events = []) : evtShown t = .noEvent := by simp [evtShown, h]

theorem evtShown_of_one_event {ev : Event} (h : t.events = [ev]) : evtShown t = ev := by simp [evtShown, h]

/-- A DEC.BYTE at an edge does to `st` and the events what it does in the state before the edge. -/
theorem decByte_before_edge {b : Byte} {rest : List Presented}
    (h : exec (.decByte b) (s.withIo [] [] false rest) = .next t) :
    ∃ u ev, exec (.decByte b) s = .next u ∧ u.events = s.events ++ [ev] ∧ t.events = [ev] ∧ u.st = t.st := by
  obtain ⟨ev, hev, hio⟩ := decByte_withIo h
  exact ⟨_, ev, hio s.events s.txData s.encErr s.inputs, rfl, hev, rfl⟩

end

/-- Settles O50: DEC's operation alone reaches `evt` and `st`, ENC's alone the transmit ports; the other ports are the
registers. -/
theorem outputsShowTheLatestEdge : Obligations.OutputsShowTheLatestEdge := by
  rintro s t e rest bufRaddr _ hin hrst hstep rfl
  obtain ⟨u, v, hu, hv, ht⟩ := step_edge_dec_first hin hrst hstep
  obtain ⟨hst_v, hev_v⟩ := runUnit_keeps_st_events (fun i hi => by simp [unitOf_decodeCrc hi]) hv
  obtain ⟨hst_t, hev_t⟩ := runUnit_keeps_st_events (fun i hi => by simp [unitOf_decodeEnc hi]) ht
  have hst : t.st = u.st := hst_t.trans hst_v
  have hev : t.events = u.events := hev_t.trans hev_v
  refine ⟨fun hno => ?_, fun b hb => ?_, fun hno => ?_, fun k hk => ?_, rfl, rfl, rfl, rfl, rfl, rfl, rfl⟩
  · exact congrArg Event.code (evtShown_of_no_events (hev.trans (runUnit_dec_events hno hu)))
  · rw [hb] at hu
    obtain ⟨w, ev, hw, hwev, huev, hwst⟩ := decByte_before_edge hu
    exact ⟨w, ev, hw, hwev, congrArg Event.code (evtShown_of_one_event (hev.trans huev)),
      congrArg ParserState.code (hst.trans hwst.symm)⟩
  · obtain ⟨htx_u, herr_u⟩ := runUnit_keeps_tx (fun i hi => by simp [unitOf_decodeDec hi]) hu
    obtain ⟨htx_v, herr_v⟩ := runUnit_keeps_tx (fun i hi => by simp [unitOf_decodeCrc hi]) hv
    obtain ⟨htx_t, herr_t⟩ := runUnit_keeps_tx (fun i hi => absurd hi (hno i)) ht
    have htx : t.txData = [] := htx_t.trans (htx_v.trans htx_u)
    exact ⟨by simp [portOut, htx], htx, herr_t.trans (herr_v.trans herr_u)⟩
  · obtain ⟨tx, err, hlen, hexec⟩ := exec_enc_tx (unitOf_decodeEnc hk)
    rw [hk] at ht
    obtain ⟨t', ht', htx, herr⟩ := hexec v
    obtain rfl : t' = t := Host.Outcome.next.inj (ht'.symm.trans ht)
    obtain ⟨w, hw, hwtx, hwerr⟩ := hexec s
    refine ⟨w, hw, htx.trans hwtx.symm, ?_, herr.trans hwerr.symm⟩
    simp [portOut, htx, hwtx, Nat.mod_eq_of_lt hlen]

end Sys2Proof.Machine

/-! ### Frame lines without overrides -/

namespace Sys2Proof.Machine

section

variable {s : State}

/-- A bare frame from Start: its type byte latched, and Rx (R150 to R152, R155). -/
theorem feed_bareFrame {p : Params} {typ : Byte} {k : FrameKind} (hk : frameKind p typ = some k)
    (hf : k.format = .bare) (h : s.st = .start) :
    feed p (bareFrame p typ) s =
      .next { s with typ := typ, st := .start, events := s.events ++ [.noEvent, .rx] } := by
  rw [bareFrame, feed_cons, decByte_of_row (.marker h rfl rfl), andThen_next, feed_cons,
    decByte_of_row (.bare rfl k hk hf rfl)]
  simp [emit, endFrame]

/-- A FRAMED line without overrides is the frame with the length and the CRC of its body (R86, R91). -/
theorem framedLine_none (p : Params) (typ : Byte) {body : List Byte} (h : body.length < 2 ^ 16) :
    framedLine p typ body none none = framedFrame p typ (framedCrc p typ (lenField body) body) body := by
  simp [framedLine, framedFrame, bytesLe16, lenField_toNat h]

/-- The body of a CMD line without `rsvd=` is the body the encoder builds (R91, R172). -/
theorem bytes_cmdLine (p : Params) (tag flags : Byte) (params : List U32) (len crc : Option U16) :
    FrameLine.bytes p (.cmd tag flags none params len crc) =
      framedLine p p.typeCmd (cmdrspBody tag flags params) len crc := rfl

theorem bytes_dataLine (p : Params) (payload : List Byte) (len crc : Option U16) :
    FrameLine.bytes p (.data payload len crc) = framedLine p p.typeData payload len crc := rfl

theorem bytes_pingRspLine (p : Params) (b0 b1 b2 b3 b4 b5 : Byte) :
    FrameLine.bytes p (.pingRsp b0 b1 b2 b3 b4 b5 none) =
      pingRspFrame p ([b0, b1, b2, b3, b4, b5] ++ bytesLe16 (pingRspCrc p [b0, b1, b2, b3, b4, b5])) := rfl

/-- A CmdRsp body has four bytes and four for each parameter (R74). -/
theorem cmdrspBody_length (tag flags : Byte) (params : List U32) :
    (cmdrspBody tag flags params).length = 4 + 4 * params.length := by
  simp [cmdrspBody]; omega

/-- A FRAMED line without overrides, within the limit of its type, ends with Rx (R132). -/
theorem feed_framedLine_rx {typ : Byte} {m : Nat} {body : List Byte} (hm : maxLen Params.hardware typ = some m)
    (hm16 : m < 2 ^ 16) (hl : body.length ≤ m) (h : s.st = .start) :
    ∃ t, feed Params.hardware (framedLine Params.hardware typ body none none) s = .next t ∧
      t.events.getLast? = some .rx := by
  rw [framedLine_none _ _ (lt_of_le_of_lt hl hm16)]
  exact ⟨_, feed_framedFrame hm _ body s h hl, by simp⟩

/-- The CRC of a PING_RSP line covers the six bytes of the line, with or without the CRC after them (R86). -/
theorem pingRspCrc_append_crc {front : List Byte} (hl : front.length = 6) (tail : List Byte) :
    pingRspCrc Params.hardware (front ++ tail) = pingRspCrc Params.hardware front := by
  simp [pingRspCrc, ← hl]

/-- The CRC a PING_RSP body carries is the one its last two bytes were made from (R77). -/
theorem pingRspRxCrc_append_crc {front : List Byte} (hl : front.length = 6) (crc : U16) :
    pingRspRxCrc Params.hardware (front ++ bytesLe16 crc) = crc := by
  simp [pingRspRxCrc, bytesLe16, hl]

/-- A PING_RSP line without override ends with Rx (R132, R156). -/
theorem feed_pingRspLine_rx {front : List Byte} (hl : front.length = 6) (h : s.st = .start) :
    ∃ t, feed Params.hardware (pingRspFrame Params.hardware
        (front ++ bytesLe16 (pingRspCrc Params.hardware front))) s = .next t ∧
      t.events.getLast? = some .rx :=
  ⟨_, feed_pingRspFrame _ s h (by simp [hl]), by simp [pingRspCrc_append_crc hl, pingRspRxCrc_append_crc hl]⟩

end

/-- Settles O56: each line is a frame with its own length and CRC, whose walk from Start ends with Rx. -/
theorem frameLinesWithoutOverridesAreValid : Obligations.FrameLinesWithoutOverridesAreValid := by
  refine ⟨rfl, rfl, rfl, rfl, fun s line h hline => ?_, by decide +kernel, fun s tag flags params h hl => ?_,
    fun s payload h hl => ?_, fun s b0 b1 b2 b3 b4 b5 h => ?_⟩
  · simp only [List.mem_cons, List.not_mem_nil, or_false] at hline
    rcases hline with rfl | rfl | rfl | rfl
    · exact ⟨_, feed_bareFrame frameKind_ack rfl h, rfl⟩
    · exact ⟨_, feed_bareFrame frameKind_nak rfl h, rfl⟩
    · exact ⟨_, feed_bareFrame frameKind_ackAbort rfl h, rfl⟩
    · exact ⟨_, feed_bareFrame frameKind_ping rfl h, rfl⟩
  · rw [bytes_cmdLine]
    exact feed_framedLine_rx (m := 32) rfl (by decide) (by rw [cmdrspBody_length]; omega) h
  · rw [bytes_dataLine]
    exact feed_framedLine_rx (m := 256) rfl (by decide) hl h
  · rw [bytes_pingRspLine]
    exact feed_pingRspLine_rx rfl h

end Sys2Proof.Machine

/-! ### The byte step by table: the running value shifted, and the step from zero (40_crc16.md R101(b), R110) -/

namespace Sys2Proof.Machine

/-- A running value is its high byte in bits 15:8 and its low byte. -/
theorem zext16_hi_xor_zext16_lo (c : U16) : (zext16 (hi c) <<< 8) ^^^ zext16 (lo c) = c := by
  ext i h
  by_cases h8 : i < 8
  · simp [zext16, lo, h8, h]
  · simp [zext16, hi, lo, h8, h, show i - 8 < 16 by omega, show i - 8 < 8 by omega, show 8 + (i - 8) = i by omega]

theorem zext16_lo_shiftLeft (c : U16) : zext16 (lo c) <<< 8 = c <<< 8 := by
  ext i h
  by_cases h8 : i < 8
  · simp [h8]
  · simp [zext16, lo, h8, show i - 8 < 16 by omega, show i - 8 < 8 by omega]

@[simp] theorem hi_shiftLeft (c : U16) : hi (c <<< 8) = lo c := by
  ext i h
  simp [hi, lo, show 8 + i < 16 by omega, BitVec.getLsbD_eq_getElem (show i < 16 by omega)]

/-- The low byte of the running value is shifted out of the way of the polynomial; only its high byte meets the byte
(R101(b)). -/
theorem crc16Step_eq_shiftLeft_xor (p : Params) (c : U16) (b : Byte) :
    crc16Step p c b = (c <<< 8) ^^^ crc16Step p 0#16 (hi c ^^^ b) := by
  have hin : c ^^^ (zext16 b <<< 8) = (0#16 ^^^ (zext16 (hi c ^^^ b) <<< 8)) ^^^ zext16 (lo c) := by
    conv_lhs => rw [← zext16_hi_xor_zext16_lo c]
    rw [zext16_xor, BitVec.shiftLeft_xor_distrib, BitVec.zero_xor, BitVec.xor_assoc, BitVec.xor_assoc,
      BitVec.xor_comm (zext16 (lo c))]
  have hlow : crcShifts p 8 (zext16 (lo c)) = c <<< 8 := by
    rw [crcShifts_of_lt p 8 8 _ (by rw [zext16_toNat]; exact (lo c).isLt) (by omega), zext16_lo_shiftLeft]
  calc crc16Step p c b
      = crcShifts p 8 ((0#16 ^^^ (zext16 (hi c ^^^ b) <<< 8)) ^^^ zext16 (lo c)) := by rw [crc16Step, hin]
    _ = crc16Step p 0#16 (hi c ^^^ b) ^^^ (c <<< 8) := by rw [crcShifts_xor, hlow, crc16Step]
    _ = (c <<< 8) ^^^ crc16Step p 0#16 (hi c ^^^ b) := BitVec.xor_comm _ _

theorem crcTable_entry :
    ∀ k < 256, crcTable[k]? = some (crc16Step Params.hardware 0x0000#16 (BitVec.ofNat 8 k)) := by decide +kernel

/-- Looking up in the printed table is the byte step. -/
theorem crc16StepByTable_eq (c : U16) (b : Byte) : crc16StepByTable c b = crc16Step Params.hardware c b := by
  have hentry := crcTable_entry _ (hi c ^^^ b).isLt
  rw [BitVec.ofNat_toNat, BitVec.setWidth_eq] at hentry
  rw [crc16StepByTable, List.getD_eq_getElem?_getD, hentry, Option.getD_some, ← crc16Step_eq_shiftLeft_xor]

/-- Settles O5: each entry is computed, and R101(b) reduces every step to an entry. -/
theorem crcTableGivesTheByteStep : Obligations.CrcTableGivesTheByteStep :=
  ⟨by decide +kernel, crcTable_entry, crc16StepByTable_eq⟩

end Sys2Proof.Machine

/-! ### The byte step as division by the generator (40_crc16.md R101(a)) -/

namespace Sys2Proof.Machine

open Polynomial

/-- G(x): x^16 and the polynomial that CRC_POLY stands for. -/
noncomputable def generator (p : Params) : (ZMod 2)[X] := X ^ 16 + bitPoly p.crcPoly

theorem coeff_bitPoly {w : Nat} (v : BitVec w) (i : Nat) : (bitPoly v).coeff i = if v.getLsbD i then 1 else 0 := by
  have hterm : ∀ j, (if v.getLsbD j then X ^ j else 0 : (ZMod 2)[X]).coeff i =
      if i = j then (if v.getLsbD i then 1 else 0) else 0 := by
    intro j
    by_cases hij : i = j
    · subst hij
      by_cases hv : v.getLsbD i <;> simp [hv]
    · by_cases hv : v.getLsbD j <;> simp [hv, hij, coeff_X_pow]
  simp only [bitPoly, finsetSum_coeff, hterm, Finset.sum_ite_eq, Finset.mem_range]
  by_cases hi : i < w
  · simp [hi]
  · simp [hi, BitVec.getLsbD_of_ge v i (by omega)]

/-- Exclusive-or is addition over GF(2). -/
theorem bitPoly_xor {w : Nat} (v v' : BitVec w) : bitPoly (v ^^^ v') = bitPoly v + bitPoly v' := by
  ext i
  rw [coeff_add, coeff_bitPoly, coeff_bitPoly, coeff_bitPoly, BitVec.getLsbD_xor]
  cases v.getLsbD i <;> cases v'.getLsbD i <;> decide

/-- Multiplying by x shifts left, and the bit shifted out is the coefficient of x^16. -/
theorem bitPoly_mul_X (r : U16) : bitPoly r * X = bitPoly (r <<< 1) + if r.msb then X ^ 16 else 0 := by
  ext i
  cases i with
  | zero => by_cases hm : r.msb <;> simp [coeff_bitPoly, hm, coeff_X_pow]
  | succ i =>
    rw [coeff_mul_X, coeff_add, coeff_bitPoly, coeff_bitPoly, BitVec.getLsbD_shiftLeft]
    rcases lt_trichotomy i 15 with hi | rfl | hi
    · by_cases hm : r.msb <;> simp [hm, coeff_X_pow, show i + 1 < 16 by omega, show i ≠ 15 by omega]
    · have htop : r.getLsbD 15 = r.msb := (BitVec.msb_eq_getLsbD_last r).symm
      rw [htop]
      by_cases hm : r.msb <;> simp [hm]
    · by_cases hm : r.msb <;>
        simp [hm, coeff_X_pow, show ¬ i + 1 < 16 by omega, show i ≠ 15 by omega, BitVec.getLsbD_of_ge r i (by omega)]

/-- Multiplying the byte by x^8 puts it into bits 15:8. -/
theorem bitPoly_zext16_shiftLeft (b : Byte) : bitPoly (zext16 b <<< 8) = bitPoly b * X ^ 8 := by
  ext i
  rw [coeff_mul_X_pow', coeff_bitPoly, coeff_bitPoly, BitVec.getLsbD_shiftLeft]
  by_cases h8 : 8 ≤ i
  · by_cases h16 : i < 16
    · simp [zext16, h8, h16, show ¬ i < 8 by omega, show i - 8 < 16 by omega]
    · simp [h8, h16, BitVec.getLsbD_of_ge b (i - 8) (by omega)]
  · simp [h8, show i < 8 by omega]

/-- One iteration of R100 multiplies by x and takes off G(x) or nothing. -/
theorem generator_dvd_crcShift (p : Params) (r : U16) : generator p ∣ bitPoly r * X - bitPoly (crcShift p r) := by
  rw [bitPoly_mul_X]
  by_cases hm : r.msb
  · have hdiff : bitPoly (r <<< 1) + X ^ 16 - bitPoly (crcShift p r) = generator p := by
      rw [crcShift, if_pos hm, bitPoly_xor, generator, CharTwo.sub_eq_add]
      linear_combination CharTwo.add_self_eq_zero (bitPoly (r <<< 1))
    rw [if_pos hm, hdiff]
  · simp [crcShift, hm]

theorem generator_dvd_crcShifts (p : Params) (n : Nat) :
    ∀ r : U16, generator p ∣ bitPoly r * X ^ n - bitPoly (crcShifts p n r) := by
  induction n with
  | zero => intro r; simp [crcShifts]
  | succ n ih =>
    intro r
    have hsplit : bitPoly r * X ^ (n + 1) - bitPoly (crcShifts p (n + 1) r) =
        (bitPoly r * X - bitPoly (crcShift p r)) * X ^ n +
          (bitPoly (crcShift p r) * X ^ n - bitPoly (crcShifts p n (crcShift p r))) := by
      rw [crcShifts]; ring
    rw [hsplit]
    exact dvd_add ((generator_dvd_crcShift p r).mul_right _) (ih _)

/-- R101(a) for every CRC_POLY. -/
theorem generator_dvd_crc16Step (p : Params) (c : U16) (b : Byte) :
    generator p ∣ bitPoly c * X ^ 8 + bitPoly b * X ^ 16 - bitPoly (crc16Step p c b) := by
  have hin : bitPoly c * X ^ 8 + bitPoly b * X ^ 16 = bitPoly (c ^^^ (zext16 b <<< 8)) * X ^ 8 := by
    rw [bitPoly_xor, bitPoly_zext16_shiftLeft]; ring
  rw [hin]
  exact generator_dvd_crcShifts p 8 _

theorem generator_hardware : generator Params.hardware = X ^ 16 + X ^ 12 + X ^ 5 + 1 := by
  have hpoly : bitPoly 0x1021#16 = (1 + X ^ 5 + X ^ 12 : (ZMod 2)[X]) := by
    simp [bitPoly, Finset.sum_range_succ]
  rw [generator, Params.hardware_crcPoly, hpoly]
  ring

/-- Settles O4: eight iterations multiply by x^8 modulo G(x), from a running value that already holds the byte. -/
theorem crcByteStepIsDivisionByTheGenerator : Obligations.CrcByteStepIsDivisionByTheGenerator := by
  intro c b
  rw [← generator_hardware]
  exact generator_dvd_crc16Step Params.hardware c b

end Sys2Proof.Machine

/-! ### The laws of `crc16` over byte sequences (40_crc16.md R104, R105) -/

namespace Sys2Proof.Machine

theorem crc16_append (p : Params) (a b : List Byte) (seed : U16) : crc16 p (a ++ b) seed = crc16 p b (crc16 p a seed) :=
  List.foldl_append

/-- Settles O6: `crc16` is a fold. -/
theorem crc16IsChunkAssociative : Obligations.Crc16IsChunkAssociative := fun p seed =>
  ⟨fun a b => (crc16_append p a b seed).symm, fun _ => List.foldl_flatten.symm, fun a x => crc16_append p a [x] seed⟩

/-- `crc16` is linear over exclusive-or in the sequence and the seed together (R105(a)). -/
theorem crc16_zipWith_xor (p : Params) : ∀ {s t : List Byte} (u v : U16), s.length = t.length →
    crc16 p (List.zipWith (fun x y => x ^^^ y) s t) (u ^^^ v) = crc16 p s u ^^^ crc16 p t v
  | [], [], _, _, _ => rfl
  | x :: s, y :: t, u, v, h => by
    simp only [List.zipWith_cons_cons, crc16_cons, crc16Step_xor]
    exact crc16_zipWith_xor p _ _ (by simpa using h)

theorem zipWith_xor_zeros (s : List Byte) :
    List.zipWith (fun x y => x ^^^ y) s (List.replicate s.length 0#8) = s := by
  induction s with
  | nil => rfl
  | cons x s ih => simp [List.replicate_succ, ih]

/-- The seed acts through a sequence of zeros of the same length (R105(b)). -/
theorem crc16_eq_xor_zeros (p : Params) (s : List Byte) (u : U16) :
    crc16 p s u = crc16 p s 0#16 ^^^ crc16 p (List.replicate s.length 0#8) u := by
  have h := crc16_zipWith_xor p (s := s) (t := List.replicate s.length 0#8) 0#16 u (by simp)
  rwa [zipWith_xor_zeros, BitVec.zero_xor] at h

theorem crc16Step_zero (p : Params) : crc16Step p 0#16 0#8 = 0#16 := by
  have h := crc16Step_xor p 0#16 0#16 0#8 0#8
  rwa [BitVec.xor_self, BitVec.xor_self, BitVec.xor_self] at h

/-- The running value's own high byte cancels it there, and the low byte moves up. -/
theorem crc16Step_hi (p : Params) (c : U16) : crc16Step p c (hi c) = c <<< 8 := by
  rw [crc16Step_eq_shiftLeft_xor, BitVec.xor_self, crc16Step_zero, BitVec.xor_zero]

/-- Feeding a running value to itself, high byte first, clears it. -/
theorem crc16_hi_lo (p : Params) (c : U16) : crc16 p [hi c, lo c] c = 0#16 := by
  have hlo : crc16Step p (c <<< 8) (lo c) = (c <<< 8) <<< 8 := by rw [← hi_shiftLeft, crc16Step_hi]
  rw [crc16_cons, crc16_cons, crc16_nil, crc16Step_hi, hlo, ← BitVec.shiftLeft_add]
  exact BitVec.shiftLeft_eq_zero (by omega)

/-- Settles O7: linearity byte by byte, the seed by way of zero bytes, the residue from the byte step. -/
theorem crc16IsLinearWithZeroResidue : Obligations.Crc16IsLinearWithZeroResidue :=
  ⟨fun p _ _ u v h => crc16_zipWith_xor p u v h, crc16_eq_xor_zeros,
    fun p s u => by rw [crc16_append, crc16_hi_lo]⟩

/-- The mask of one bit of a byte is not zero. -/
theorem one_shiftLeft_ne_zero {j : Nat} (hj : j < 8) : 1#8 <<< j ≠ 0#8 := by
  intro h
  have hbit := congrArg (fun v : Byte => v.getLsbD j) h
  simp [hj] at hbit

/-- One inverted bit is never lost: the byte step tells the two bytes apart, and no later byte brings the running values
together (R105(c)). -/
theorem crc16_flipBit_ne {p : Params} (hp : p.crcPoly[0] = true) {j : Nat} (hj : j < 8) :
    ∀ {s : List Byte} (k : Nat) (u : U16), k < s.length → crc16 p (flipBit s k j) u ≠ crc16 p s u
  | b :: s, 0, u, _, h => by
    have hstep : crc16Step p u (b ^^^ (1#8 <<< j)) = crc16Step p u b := crc16_inj_seed hp h
    have hbyte : b ^^^ (1#8 <<< j) = b := crc16Step_inj_right hp hstep
    exact one_shiftLeft_ne_zero hj (by simpa using hbyte)
  | b :: s, k + 1, u, hk, h => crc16_flipBit_ne hp hj k (crc16Step p u b) (Nat.lt_of_succ_lt_succ hk) h

/-- Settles O8: the polynomial of this hardware has constant term 1. -/
theorem oneFlippedBitChangesTheCrc : Obligations.OneFlippedBitChangesTheCrc := fun _ u k _ hk hj =>
  crc16_flipBit_ne hardware_crcPoly_odd hj k u hk

end Sys2Proof.Machine

/-! ### CRC.SEED and CRC.BYTE (40_crc16.md R106 to R108) -/

namespace Sys2Proof.Machine

section

variable {i : Instr} {ops : List Instr} {s t : State}

theorem exec_crcSeed (seed : U16) (s : State) : exec (.crcSeed seed) s = .next { s with crcAcc := seed } := rfl

theorem exec_crcByte (b : Byte) (s : State) :
    exec (.crcByte b) s = .next { s with crcAcc := crc16Step Params.hardware s.crcAcc b } := rfl

/-- CRC.BYTE operations take `crc_acc` through `crc16` and write nothing else. -/
theorem runOps_crcBytes : ∀ (bytes : List Byte) (s : State),
    runOps (bytes.map .crcByte) s = .next { s with crcAcc := crc16 Params.hardware bytes s.crcAcc }
  | [], _ => rfl
  | b :: bytes, s => by
    rw [List.map_cons, runOps_cons, exec_crcByte, andThen_next, runOps_crcBytes bytes, crc16_cons]

theorem crcBytes_cons (i : Instr) (ops : List Instr) : crcBytes (i :: ops) = crcBytes [i] ++ crcBytes ops :=
  List.filterMap_append (l := [i])

theorem crcBytes_singleton_of_ne_crcgen (h : unitOf i ≠ .crcgen) : crcBytes [i] = [] := by
  cases i with
  | crcSeed | crcByte => exact absurd rfl h
  | _ => rfl

/-- One operation other than CRC.SEED takes `crc_acc` through its CRC.BYTE, if it is one. -/
theorem exec_crcAcc (hno : ∀ seed, i ≠ .crcSeed seed) (h : exec i s = .next t) :
    t.crcAcc = crc16 Params.hardware (crcBytes [i]) s.crcAcc := by
  by_cases hi : unitOf i = .crcgen
  · cases i with
    | crcSeed seed => exact absurd rfl (hno seed)
    | crcByte b =>
      obtain rfl : { s with crcAcc := crc16Step Params.hardware s.crcAcc b } = t := by simpa [exec_crcByte] using h
      rfl
    | _ => exact absurd hi (by simp [unitOf])
  · obtain ⟨hcrc, -⟩ := unitsShareNoState i s t h
    rw [hcrc hi, crcBytes_singleton_of_ne_crcgen hi, crc16_nil]

/-- Operations of other units between the CRC.BYTE operations do not matter (R108). -/
theorem runOps_crcAcc (hfree : seedFree ops) (h : runOps ops s = .next t) :
    t.crcAcc = crc16 Params.hardware (crcBytes ops) s.crcAcc := by
  induction ops generalizing s with
  | nil =>
    obtain rfl : s = t := by simpa [runOps] using h
    rfl
  | cons i ops ih =>
    obtain ⟨u, hu, hrest⟩ := andThen_eq_next.mp h
    have hno : ∀ seed, i ≠ .crcSeed seed := fun seed hi => hfree seed (by simp [hi])
    have hops : seedFree ops := fun seed hmem => hfree seed (List.mem_cons_of_mem i hmem)
    rw [crcBytes_cons, crc16_append, ← exec_crcAcc hno hu]
    exact ih hops hrest

end

/-- Settles O9: CRC.SEED writes the seed, and the operations after it fold the byte step over it. -/
theorem seedAndBytesComputeCrc16 : Obligations.SeedAndBytesComputeCrc16 := by
  refine ⟨fun seed bytes s => ?_, fun seed ops s t hfree h => ?_, fun bytes => runOps_crcBytes bytes State.reset⟩
  · rw [runOps_cons, exec_crcSeed, andThen_next, runOps_crcBytes]
  · rw [runOps_cons, exec_crcSeed, andThen_next] at h
    exact runOps_crcAcc hfree h

/-- Settles O1: the next state of CRC.SEED, and CRCGEN's port. -/
theorem crcSeedWritesTheAccumulator : Obligations.CrcSeedWritesTheAccumulator := fun seed s =>
  ⟨exec_crcSeed seed s, exec_crcSeed s.crcAcc s, rfl⟩

/-- Settles O2; the two values are computed. -/
theorem crcByteStepsTheAccumulator : Obligations.CrcByteStepsTheAccumulator :=
  ⟨exec_crcByte, fun _ => rfl, by decide, by decide⟩

/-- Settles O3: six values of the byte step, computed. -/
theorem crcByteStepCornerCases : Obligations.CrcByteStepCornerCases := by
  unfold Obligations.CrcByteStepCornerCases
  decide

end Sys2Proof.Machine

/-! ### The type map of this hardware, by format (30_encoding.md R80) -/

namespace Sys2Proof.Machine

section

variable {t : Byte}

theorem frameKind_of_bare_typeByte (h : t ∈ [0xA1#8, 0xA2#8, 0xA3#8, 0xA6#8]) :
    ∃ k, frameKind Params.hardware t = some k ∧ k.format = .bare := by
  simp only [List.mem_cons, List.not_mem_nil, or_false] at h
  rcases h with rfl | rfl | rfl | rfl
  · exact ⟨_, frameKind_ack, rfl⟩
  · exact ⟨_, frameKind_nak, rfl⟩
  · exact ⟨_, frameKind_ackAbort, rfl⟩
  · exact ⟨_, frameKind_ping, rfl⟩

theorem frameKind_framed_iff :
    (∃ k, frameKind Params.hardware t = some k ∧ (k = .cmd ∨ k = .data)) ↔ t ∈ [0xA4#8, 0xA5#8] := by
  simp only [List.mem_cons, List.not_mem_nil, or_false]
  constructor
  · rintro ⟨k, hk, rfl | rfl⟩
    · exact .inl (typeByte_of_frameKind hk)
    · exact .inr (typeByte_of_frameKind hk)
  · rintro (rfl | rfl)
    · exact ⟨_, frameKind_cmd, .inl rfl⟩
    · exact ⟨_, frameKind_data, .inr rfl⟩

/-- A CMD or DATA frame has as many body bytes as its length field says (R135). -/
theorem need_of_framed_typeByte (h : t ∈ [0xA4#8, 0xA5#8]) (len : U16) :
    need Params.hardware t len = some len.toNat := by
  obtain ⟨k, hk, hf⟩ := frameKind_framed_iff.mpr h
  obtain ⟨m, hm⟩ := maxLen_of_framed hk hf
  exact need_of_maxLen hm len

/-- The types with a length limit are CMD and DATA (R127). -/
theorem framed_typeByte_of_maxLen {m : Nat} (h : maxLen Params.hardware t = some m) : t ∈ [0xA4#8, 0xA5#8] := by
  rcases frameKind_of_maxLen h with ⟨hk, -⟩ | ⟨hk, -⟩
  · exact frameKind_framed_iff.mp ⟨_, hk, .inl rfl⟩
  · exact frameKind_framed_iff.mp ⟨_, hk, .inr rfl⟩

end

end Sys2Proof.Machine

/-! ### Where DEC.BYTE evaluates the frame, and what the evaluation covers (41_decoder_fsm.md R132) -/

namespace Sys2Proof.Machine

theorem exec_decByte (b : Byte) (s : State) : exec (.decByte b) s = decByte Params.hardware b s := rfl

section

variable {p : Params} {b : Byte} {s : State}

theorem evaluate_bare_typeByte (h : s.typ ∈ [0xA1#8, 0xA2#8, 0xA3#8, 0xA6#8]) :
    evaluate Params.hardware s = .next (endFrame .rx s) := by
  obtain ⟨k, hk, hf⟩ := frameKind_of_bare_typeByte h
  exact evaluate_bare hk hf

theorem evaluate_framed_typeByte (h : s.typ ∈ [0xA4#8, 0xA5#8]) (hl : s.len.toNat ≤ 256) :
    evaluate Params.hardware s = .next (endFrame
      (if crc16 Params.hardware ([0x5A#8, s.typ, lo s.len, hi s.len] ++ bufSlice s s.len.toNat) 0#16 = s.crcRx
        then .rx else .rxErrorCrc) s) := by
  obtain ⟨k, hk, hf⟩ := frameKind_framed_iff.mpr h
  exact evaluate_framed hk hf hl

/-- The CRC of a PING_RSP frame covers the first six body bytes and stands in the last two (R77, R86). -/
theorem evaluate_pingRsp_typeByte (h : s.typ = 0xA7#8) :
    evaluate Params.hardware s = .next (endFrame
      (if crc16 Params.hardware ([0x5A#8, 0xA7#8] ++ bufSlice s 6) 0#16 = le16 (bufByte s 6) (bufByte s 7)
        then .rx else .rxErrorCrc) s) :=
  evaluate_pingRsp (h ▸ frameKind_pingRsp) (by decide)

theorem decByte_bare_type {k : FrameKind} (hs : s.st = .type) (hk : frameKind p b = some k) (hf : k.format = .bare) :
    decByte p b s = evaluate p { s with typ := b, st := .done } := by
  simp [decByte_type hs, decType, hk, hf]

theorem decByte_empty_body (hs : s.st = .crcHigh) (hl : s.len = 0#16) :
    decByte p b s = evaluate p { s with crcRx := le16 (lo s.crcRx) b, idx := 0#16, st := .done } := by
  rw [decByte_crcHigh hs, decCrcHigh, if_pos hl]

theorem decByte_last_body_byte (hs : s.st = .data) (hi : s.idx.toNat < p.bufSize)
    (hn : need p s.typ s.len = some (s.idx.toNat + 1)) :
    decByte p b s = evaluate p { s with
      buf := Memory.put s.idx.toNat b s.buf, idx := s.idx + 1#16, st := .done } := by
  simp [decByte_data hs, decData, hn, bufWrite, hi]

end

/-- Settles O16: the evaluation by format, and the three places of DEC.BYTE that perform it. -/
theorem evaluationChecksTheCoveredRange : Obligations.EvaluationChecksTheCoveredRange := by
  refine ⟨fun s => ⟨evaluate_bare_typeByte, evaluate_framed_typeByte, evaluate_pingRsp_typeByte⟩,
    fun s b => ⟨fun hs hb => ?_, fun hs hl => decByte_empty_body hs hl,
      fun hs hi hn => decByte_last_body_byte hs hi hn⟩⟩
  obtain ⟨k, hk, hf⟩ := frameKind_of_bare_typeByte hb
  exact decByte_bare_type hs hk hf

end Sys2Proof.Machine

/-! ### The start marker (41_decoder_fsm.md R121) -/

namespace Sys2Proof.Machine

/-- Bytes other than the start marker are discarded, each with event None (R121). -/
theorem feed_discards {p : Params} : ∀ (bytes : List Byte) (s : State), s.st = .start → p.startByte ∉ bytes →
    feed p bytes s = .next { s with events := s.events ++ nones bytes.length }
  | [], s, _, _ => by simp [nones]
  | b :: bytes, s, hs, hmem => by
    obtain ⟨hb, hmem⟩ : p.startByte ≠ b ∧ p.startByte ∉ bytes := by simpa using hmem
    rw [feed_cons, decByte_of_row (.discard hs hb.symm rfl), andThen_next,
      feed_discards bytes (emit .noEvent s) hs hmem]
    simp [emit, nones, List.replicate_succ]

/-- Settles O10: the two rows of Start, and a run of the second of them. -/
theorem startLooksForTheMarker : Obligations.StartLooksForTheMarker := by
  intro s hs
  have hmarker : decByte Params.hardware 0x5A#8 s = .next (emit .noEvent { s with st := .type }) :=
    decByte_of_row (.marker hs rfl rfl)
  refine ⟨hmarker, fun b hb => decByte_of_row (.discard hs hb rfl),
    fun bytes hmem => feed_discards bytes s hs hmem, ?_⟩
  rw [feed_cons, hmarker, andThen_next, feed_cons, decByte_of_row (.badType rfl (frameKind_eq_none (by decide)) rfl)]
  simp [emit, endFrame, hs]

end Sys2Proof.Machine

/-! ### The header byte by byte (41_decoder_fsm.md R122 to R129, R131) -/

namespace Sys2Proof.Machine

/-- Settles O11: the four rows of Type, by the format of the byte. -/
theorem typeByteSelectsTheFrame : Obligations.TypeByteSelectsTheFrame := by
  intro s b hs
  refine ⟨fun hb => ?_, fun hb => decByte_of_row (.pingRsp hs (hb ▸ frameKind_pingRsp) rfl), fun hb => ?_,
    fun hb => decByte_of_row (.badType hs (frameKind_eq_none hb) rfl)⟩
  · obtain ⟨k, hk, hf⟩ := frameKind_of_bare_typeByte hb
    exact decByte_of_row (.bare hs k hk hf rfl)
  · obtain ⟨k, hk, hf⟩ := frameKind_framed_iff.mpr hb
    exact decByte_of_row (.framed hs k hk hf rfl)

/-- Settles O12: the rows of LenLow and CrcLow. -/
theorem lowBytesAreZeroExtended : Obligations.LowBytesAreZeroExtended := fun _ _ =>
  ⟨fun hs => decByte_of_row (.lenLow hs rfl), fun hs => decByte_of_row (.crcLow hs rfl)⟩

/-- Settles O13: the two rows of LenHigh with the limits 32 and 256; the high byte counts 256 times. -/
theorem lengthBoundIsApplied : Obligations.LengthBoundIsApplied := by
  rintro s b L hs rfl
  have hcmd : s.typ = 0xA4#8 → maxLen Params.hardware s.typ = some 32 := fun ht => by rw [ht]; rfl
  have hdata : s.typ = 0xA5#8 → maxLen Params.hardware s.typ = some 256 := fun ht => by rw [ht]; rfl
  have hL := le16_toNat (lo s.len) b
  refine ⟨fun ht hl => decByte_of_row (.lenHigh hs _ (hcmd ht) hl rfl),
    fun ht hl => decByte_of_row (.badLen hs _ (hcmd ht) hl rfl),
    fun ht hl => decByte_of_row (.lenHigh hs _ (hdata ht) hl rfl),
    fun ht hl => decByte_of_row (.badLen hs _ (hdata ht) hl rfl), fun hb => by omega, fun hb => ?_, fun hsafe => ?_⟩
  · have hpos : b.toNat ≠ 0 := fun h0 => hb (BitVec.eq_of_toNat_eq h0)
    omega
  · obtain ⟨m, hm⟩ := hsafe.framedTyp (.inr (.inl hs))
    exact framed_typeByte_of_maxLen hm

/-- Settles O14: the body opens, or the frame is evaluated with no body byte. -/
theorem highCrcByteOpensTheBody : Obligations.HighCrcByteOpensTheBody := by
  refine fun s b hs => ⟨fun hl => decByte_of_row (.crcHigh hs hl rfl), fun hl ht => ?_⟩
  rw [exec_decByte, decByte_empty_body hs hl, evaluate_framed_typeByte]
  · simp only [hl]; rfl
  · exact ht
  · simp [hl]

end Sys2Proof.Machine

/-! ### The body (41_decoder_fsm.md R130) -/

namespace Sys2Proof.Machine

/-- Settles O15: the two rows of Data; the evaluation reads the buffer with the byte stored. -/
theorem bodyByteIsStored : Obligations.BodyByteIsStored := by
  rintro s u b hs rfl
  refine ⟨fun ht h256 hlt => ?_, fun ht h256 hlast => ?_, fun ht hlt => ?_, fun ht hlast => ?_,
    fun _ => bufByte_put_same s _ b, fun a ha => bufByte_put_other s ha b, fun hsafe => hsafe.bodyBound hs⟩
  · exact decByte_of_row (.body hs _ (need_of_framed_typeByte ht s.len) (by simp; omega) (by omega) rfl)
  · rw [exec_decByte, decByte_last_body_byte hs (by simp; omega) (by rw [need_of_framed_typeByte ht, hlast])]
    exact evaluate_framed_typeByte ht h256
  · exact decByte_of_row (.body hs 8 (ht ▸ rfl) (by simp; omega) (by omega) rfl)
  · rw [exec_decByte, decByte_last_body_byte hs (by simp; omega) (by rw [hlast, ht]; rfl)]
    exact evaluate_pingRsp_typeByte ht

end Sys2Proof.Machine

/-! ### Every DEC.BYTE: its event, what it writes and which state it enters (41_decoder_fsm.md R133, R134) -/

namespace Sys2Proof.Machine

section

variable {p : Params} {b : Byte} {s t : State}

/-- One event a byte; only the end of a frame has an event other than None (R133). -/
theorem decByte_event (h : decByte p b s = .next t) :
    ∃ e, t.events = s.events ++ [e] ∧ (e ≠ .noEvent → t.st = .start) ∧ t.st ≠ .done := by
  cases decByte_row h with
  | marker _ _ ht | pingRsp _ _ ht | framed _ _ _ _ ht | lenLow _ ht | lenHigh _ _ _ _ ht | crcLow _ ht
  | crcHigh _ _ ht =>
    subst ht
    exact ⟨.noEvent, rfl, by simp, by simp⟩
  | discard hs _ ht | body hs _ _ _ _ ht =>
    subst ht
    exact ⟨.noEvent, rfl, by simp, by simp [hs]⟩
  | bare _ _ _ _ ht | badType _ _ ht | badLen _ _ _ _ ht =>
    subst ht
    exact ⟨_, rfl, fun _ => rfl, by simp⟩
  | empty _ _ he | last _ _ _ _ _ he =>
    obtain ⟨e, rfl⟩ := evaluate_endFrame he
    exact ⟨e, rfl, fun _ => rfl, by simp⟩

/-- The last column of R134, register by register: the states that write it, and the one store into the buffer. -/
theorem decByte_writes (h : decByte p b s = .next t) :
    (s.st ≠ .type → t.typ = s.typ) ∧ (s.st ≠ .lenLow → s.st ≠ .lenHigh → t.len = s.len) ∧
    (s.st ≠ .crcLow → s.st ≠ .crcHigh → t.crcRx = s.crcRx) ∧
    (¬(s.st = .type ∧ b = p.typePingRsp) → s.st ≠ .crcHigh → s.st ≠ .data → t.idx = s.idx) ∧
    t.buf = if s.st = .data then Memory.put s.idx.toNat b s.buf else s.buf := by
  cases decByte_row h with
  | marker hs _ ht | discard hs _ ht | bare hs _ _ _ ht | framed hs _ _ _ ht | badType hs _ ht | lenLow hs ht
  | lenHigh hs _ _ _ ht | badLen hs _ _ _ ht | crcLow hs ht | crcHigh hs _ ht | body hs _ _ _ _ ht =>
    subst ht
    simp [hs]
  | pingRsp hs hk ht =>
    have hb : b = p.typePingRsp := typeByte_of_frameKind hk
    subst ht
    simp [hs, hb]
  | empty hs _ he | last hs _ _ _ _ he =>
    obtain ⟨e, rfl⟩ := evaluate_endFrame he
    simp [hs]

/-- DEC.BYTE writes no byte of the buffer but the one at `idx`, in Data (R134). -/
theorem decByte_bufByte {a : Nat} (h : decByte p b s = .next t) (ha : ¬(s.st = .data ∧ a = s.idx.toNat)) :
    bufByte t a = bufByte s a := by
  obtain ⟨-, -, -, -, hresets⟩ := decByte_frame h
  obtain ⟨-, -, -, -, hbuf⟩ := decByte_writes h
  by_cases hs : s.st = .data
  · simp [bufByte, hbuf, hs, hresets, find_put_other fun hidx => ha ⟨hs, hidx⟩]
  · exact bufByte_congr (by rw [hbuf, if_neg hs]) hresets a

end

/-- Settles O17: `decByte_event`, with the parameters of this hardware. -/
theorem everyEventLeavesTheParserInStart : Obligations.EveryEventLeavesTheParserInStart :=
  fun _ _ _ h => decByte_event h

/-- Settles O18, from the last column of R134 (`decByte_writes`). -/
theorem decByteWritesOnlyWhatItsStateNames : Obligations.DecByteWritesOnlyWhatItsStateNames := by
  intro s t b h
  obtain ⟨hcrc, htx, herr, hin, hresets⟩ := decByte_frame h
  obtain ⟨htyp, hlen, hcrcRx, hidx, -⟩ := decByte_writes h
  exact ⟨hcrc, htx, herr, hin, hresets, htyp, hlen, hcrcRx, hidx, fun _ => decByte_bufByte h⟩

/-- Settles O19: the state each row of R134 enters. -/
theorem statesAreEnteredInOrder : Obligations.StatesAreEnteredInOrder := by
  intro s t b h
  cases decByte_row h with
  | marker hs hb ht => subst ht; simp [hs, hb]
  | pingRsp hs hk ht => subst ht; simp [hs, typeByte_of_frameKind hk, FrameKind.typeByte]
  | framed hs k hk hf ht => subst ht; simpa [hs] using frameKind_framed_iff.mp ⟨k, hk, hf⟩
  | discard hs _ ht | bare hs _ _ _ ht | badType hs _ ht | lenLow hs ht | lenHigh hs _ _ _ ht | badLen hs _ _ _ ht
  | crcLow hs ht | crcHigh hs _ ht | body hs _ _ _ _ ht => subst ht; simp [hs]
  | empty _ _ he | last _ _ _ _ _ he => obtain ⟨e, rfl⟩ := evaluate_endFrame he; simp

/-- Settles O20: the eighth arm of DEC.BYTE (`decByte_done`). -/
theorem decByteInDoneIsRefused : Obligations.DecByteInDoneIsRefused := fun _ _ => decByte_done

/-- Settles O21: what DEC.CLEAR writes, and its port code. -/
theorem decClearAbandonsTheFrame : Obligations.DecClearAbandonsTheFrame := fun _ _ => ⟨rfl, rfl⟩

end Sys2Proof.Machine

/-! ### The way back to Start (41_decoder_fsm.md R137(b)) -/

namespace Sys2Proof.Machine

/-- How many bytes at most bring the parser back to Start: those left of the header and of the longest body, in Data
those left of the body in progress. -/
def bytesToStart (s : State) : Nat :=
  match s.st with
  | .start => 0
  | .type => 261
  | .lenLow => 260
  | .lenHigh => 259
  | .crcLow => 258
  | .crcHigh => 257
  | .data => (need Params.hardware s.typ s.len).getD 0 - s.idx.toNat
  | .done => 0

section

variable {b : Byte} {s t : State}

theorem bytesToStart_of_start (hs : s.st = .start) : bytesToStart s = 0 := by simp [bytesToStart, hs]

/-- In Data at least the last byte of the body is left, and at most the whole buffer. -/
theorem bytesToStart_of_data (h : SafeState s) (hs : s.st = .data) : 0 < bytesToStart s ∧ bytesToStart s ≤ 256 := by
  obtain ⟨n, hn, hlt, hb⟩ := h.bodyBound hs
  rw [Params.hardware_bufSize] at hb
  simp only [bytesToStart, hs, hn, Option.getD_some]
  omega

theorem bytesToStart_pos (h : SafeState s) (hs : s.st ≠ .start) : 0 < bytesToStart s := by
  cases hst : s.st with
  | start => exact absurd hst hs
  | done => exact absurd hst h.notDone
  | data => exact (bytesToStart_of_data h hst).1
  | _ => simp [bytesToStart, hst]

theorem bytesToStart_le (h : SafeState s) : bytesToStart s ≤ 261 := by
  cases hs : s.st with
  | data => exact (bytesToStart_of_data h hs).2.trans (by decide)
  | _ => simp [bytesToStart, hs]

/-- Every byte of a frame brings the parser nearer to Start. -/
theorem decByte_bytesToStart_lt (h : SafeState s) (hs : s.st ≠ .start)
    (hstep : decByte Params.hardware b s = .next t) : bytesToStart t < bytesToStart s := by
  have hpos := bytesToStart_pos h hs
  cases decByte_row hstep with
  | marker hst | discard hst => exact absurd hst hs
  | bare _ _ _ _ ht | badType _ _ ht | badLen _ _ _ _ ht => subst ht; rwa [bytesToStart_of_start rfl]
  | empty _ _ he | last _ _ _ _ _ he =>
    obtain ⟨e, rfl⟩ := evaluate_endFrame he
    rwa [bytesToStart_of_start rfl]
  | framed hst _ _ _ ht | lenLow hst ht | lenHigh hst _ _ _ ht | crcLow hst ht =>
    subst ht
    simp [bytesToStart, hst]
  | pingRsp hst _ ht | crcHigh hst _ ht =>
    obtain ⟨-, hle⟩ := bytesToStart_of_data (decByte_keeps_inv hardware_ok h hstep) (by rw [ht]; rfl)
    refine lt_of_le_of_lt hle ?_
    simp [bytesToStart, hst]
  | body hst n hn hi hlast ht =>
    rw [Params.hardware_bufSize] at hi
    have hidx : (s.idx + 1#16).toNat = s.idx.toNat + 1 := by rw [BitVec.toNat_add]; simp; omega
    subst ht
    simp only [bytesToStart, hst, emit_st, emit_typ, emit_len, emit_idx, hn, Option.getD_some, hidx] at hpos ⊢
    omega

/-- Of a run of bytes that is long enough, some front part ends in Start. -/
theorem feed_reaches_start : ∀ (bytes : List Byte) {s : State}, SafeState s → bytesToStart s ≤ bytes.length →
    ∃ k ≤ bytesToStart s, ∃ t, feed Params.hardware (bytes.take k) s = .next t ∧ t.st = .start
  | bytes, s, h, hlen => by
    by_cases hs : s.st = .start
    · exact ⟨0, Nat.zero_le _, s, rfl, hs⟩
    · have hpos := bytesToStart_pos h hs
      match bytes, hlen with
      | [], hlen => simp at hlen; omega
      | b :: bytes, hlen =>
        obtain ⟨u, hu, hsafe⟩ := decByte_completesIn hardware_ok b h
        have hlt := decByte_bytesToStart_lt h hs hu
        obtain ⟨k, hk, t, ht, hst⟩ := feed_reaches_start bytes hsafe (by simp at hlen; omega)
        exact ⟨k + 1, by omega, t, by rw [List.take_succ_cons, feed_cons, hu, andThen_next, ht], hst⟩

end

/-- Settles O22: `bytesToStart` is at most 261; a PING_RSP body is eight bytes and is evaluated at the last. -/
theorem parserReturnsToStart : Obligations.ParserReturnsToStart := by
  refine ⟨fun s bytes hsafe hlen => ?_, fun s body hs hlen => ?_⟩
  · have hle := bytesToStart_le hsafe
    obtain ⟨k, hk, t, ht, hst⟩ := feed_reaches_start bytes hsafe (hle.trans hlen.ge)
    exact ⟨k, hk.trans hle, t, ht, hst⟩
  · have hne : body ≠ [] := by rintro rfl; simp at hlen
    rw [feed_cons, decByte_of_row (.pingRsp hs frameKind_pingRsp rfl), andThen_next,
      feed_whole_body _ body _ rfl rfl (by rw [hlen]; rfl) (by simp [hlen]) (by simp [hlen]) hne,
      evaluate_pingRsp_typeByte rfl]
    exact ⟨_, rfl, rfl⟩

end Sys2Proof.Machine

/-! ### Frames from Start: what the walks leave (42_frame_types.md R150 to R156) -/

namespace Sys2Proof.Machine

section

variable {s : State} {typ : Byte} {m : Nat}

/-- A bare frame from Start writes `typ` and no other register. -/
theorem feed_bareFrame_from_start {p : Params} {k : FrameKind} (hk : frameKind p typ = some k)
    (hf : k.format = .bare) (hs : s.st = .start) :
    feed p (bareFrame p typ) s = .next { s with typ := typ, events := s.events ++ [.noEvent, .rx] } := by
  rw [feed_bareFrame hk hf hs, ← hs]

/-- A declared length above the limit of the type ends the frame with its fourth byte (R127, R153, R154). -/
theorem feed_header_tooLong {p : Params} (hm : maxLen p typ = some m) (hs : s.st = .start) {b0 b1 : Byte}
    (hl : m < (le16 b0 b1).toNat) :
    feed p [p.startByte, typ, b0, b1] s =
      .next { s with typ := typ, len := le16 b0 b1, events := s.events ++ nones 3 ++ [.rxErrorLen] } := by
  obtain ⟨k, hk, hf⟩ : ∃ k, frameKind p typ = some k ∧ (k = .cmd ∨ k = .data) := by
    rcases frameKind_of_maxLen hm with ⟨hk, -⟩ | ⟨hk, -⟩
    · exact ⟨_, hk, .inl rfl⟩
    · exact ⟨_, hk, .inr rfl⟩
  rw [feed_cons, decByte_of_row (.marker hs rfl rfl), andThen_next,
    feed_cons, decByte_of_row (.framed rfl k hk hf rfl), andThen_next,
    feed_cons, decByte_of_row (.lenLow rfl rfl), andThen_next,
    feed_cons, decByte_of_row (.badLen rfl m hm (by simpa using hl) rfl), andThen_next, feed_nil]
  simp [emit, endFrame, nones, List.replicate_succ, hs]

/-- `bufSlice_putAll` with the length of the body named. -/
theorem bufSlice_of_putAll {t : State} {body : List Byte} {n : Nat} (hn : body.length = n)
    (h : t.buf = Memory.putAll 0 body s.buf) : bufSlice t n = body := hn ▸ bufSlice_putAll s body h

/-- What a CMD or DATA frame within its limit leaves, register by register (R153, R154). -/
theorem framedFrame_from_start (hm : maxLen Params.hardware typ = some m) (crc : U16) (body : List Byte)
    (hs : s.st = .start) (hl : body.length ≤ m) :
    ∃ t, feed Params.hardware (framedFrame Params.hardware typ crc body) s = .next t ∧
      t.st = .start ∧ t.typ = typ ∧ t.len = lenField body ∧ t.crcRx = crc ∧ t.idx = lenField body ∧
      bufSlice t body.length = body ∧ (∀ a, body.length ≤ a → bufByte t a = bufByte s a) ∧
      t.events = s.events ++ nones (5 + body.length) ++
        [if framedCrc Params.hardware typ (lenField body) body = crc then .rx else .rxErrorCrc] ∧
      t.crcAcc = s.crcAcc ∧ t.txData = s.txData ∧ t.encErr = s.encErr ∧ t.inputs = s.inputs ∧ t.resets = s.resets :=
  ⟨_, feed_framedFrame hm crc body s hs hl, rfl, rfl, rfl, rfl, rfl, bufSlice_putAll s body rfl,
    fun _ ha => bufByte_putAll_beyond body (by rfl) (by rfl) ha,
    rfl, rfl, rfl, rfl, rfl, rfl⟩

end

/-- Settles O23: each type is bare, and its frame is the marker and the type byte. -/
theorem bareFramesGiveRx : Obligations.BareFramesGiveRx := fun _ hs =>
  ⟨feed_bareFrame_from_start frameKind_ack rfl hs, feed_bareFrame_from_start frameKind_nak rfl hs,
    feed_bareFrame_from_start frameKind_ackAbort rfl hs, feed_bareFrame_from_start frameKind_ping rfl hs,
    rfl, rfl, rfl, rfl⟩

/-- Settles O24: the FRAMED walk with the limit 32. -/
theorem cmdFrameFromStart : Obligations.CmdFrameFromStart :=
  ⟨fun _ crc body hs hl => framedFrame_from_start (m := 32) rfl crc body hs hl,
    fun _ _ _ hs hl => feed_header_tooLong (m := 32) rfl hs hl⟩

/-- Settles O25: the FRAMED walk with the limit 256. -/
theorem dataFrameFromStart : Obligations.DataFrameFromStart :=
  ⟨fun _ crc payload hs hl => framedFrame_from_start (m := 256) rfl crc payload hs hl,
    fun _ _ _ hs hl => feed_header_tooLong (m := 256) rfl hs hl⟩

/-- Settles O26: the PING_RSP walk; its CRC covers the first six body bytes and is read from the last two. -/
theorem pingRspFrameFromStart : Obligations.PingRspFrameFromStart := by
  intro s b0 b1 b2 b3 b4 b5 c0 c1 hs
  have hwalk := feed_pingRspFrame [b0, b1, b2, b3, b4, b5, c0, c1] s hs rfl
  exact ⟨_, hwalk, rfl, rfl, rfl, rfl, rfl, bufSlice_of_putAll rfl rfl,
    fun _ ha => bufByte_putAll_beyond [b0, b1, b2, b3, b4, b5, c0, c1] (by rfl) (by rfl) ha,
    rfl, rfl, rfl, rfl, rfl, rfl⟩

end Sys2Proof.Machine

/-! ### What the parser reports of a frame with a correct CRC (42_frame_types.md R157, R158(a)) -/

namespace Sys2Proof.Machine

section

variable {s : State} {p : Params}

theorem packet_cmd (h : frameKind p s.typ = some .cmd) :
    packet p s = some (.cmd s.typ s.len s.crcRx (bufSlice s s.len.toNat)) := by simp [packet, h]

theorem packet_data (h : frameKind p s.typ = some .data) :
    packet p s = some (.data s.typ s.len s.crcRx (bufSlice s s.len.toNat)) := by simp [packet, h]

theorem packet_pingRsp (h : frameKind p s.typ = some .pingRsp) :
    packet p s = some (.pingRsp s.typ (bufSlice s p.pingRspBodyLen)) := by simp [packet, h]

/-- A body within its limit, as the limit the parser applies. -/
theorem maxLen_of_framedOk {typ : Byte} {body : List Byte} (h : framedOk typ body) :
    ∃ m, maxLen Params.hardware typ = some m ∧ body.length ≤ m ∧ m ≤ 256 := by
  rcases h with ⟨rfl, hl⟩ | ⟨rfl, hl⟩
  · exact ⟨32, rfl, hl, by decide⟩
  · exact ⟨256, rfl, hl, le_rfl⟩

end

/-- Settles O27: the walk leaves the fields in the registers and the body in the buffer, and the packet is read from
there. -/
theorem validFrameIsReportedAsSent : Obligations.ValidFrameIsReportedAsSent := by
  intro s typ crc body hs hok hcrc
  obtain ⟨m, hm, hl, h256⟩ := maxLen_of_framedOk hok
  obtain ⟨t, ht, hst, htyp, hlen, hcrcRx, -, hbody, -, hev, -⟩ := framedFrame_from_start hm crc body hs hl
  have hslice : bufSlice t t.len.toNat = body := by rw [hlen, lenField_toNat (by omega), hbody]
  refine ⟨t, ht, hst, hev.trans (by rw [if_pos (by exact hcrc.symm)]), fun hcmd => ?_, fun hdata => ?_⟩
  · rw [packet_cmd (by rw [htyp, hcmd]; rfl), htyp, hlen, hcrcRx, ← hlen, hslice]
  · rw [packet_data (by rw [htyp, hdata]; rfl), htyp, hlen, hcrcRx, ← hlen, hslice]

end Sys2Proof.Machine

/-! ### One flipped bit (42_frame_types.md R158(b) and its last sentence) -/

namespace Sys2Proof.Machine

section

variable {k j : Nat}

@[simp] theorem flipBit_length (bs : List Byte) (k j : Nat) : (flipBit bs k j).length = bs.length := by simp [flipBit]

/-- A bit of the front part of a sequence is flipped there. -/
theorem flipBit_append_left : ∀ {xs : List Byte} {k : Nat}, k < xs.length → ∀ (ys : List Byte) (j : Nat),
    flipBit (xs ++ ys) k j = flipBit xs k j ++ ys
  | _ :: _, 0, _, _, _ => rfl
  | x :: _, _ + 1, hk, ys, j => congrArg (x :: ·) (flipBit_append_left (Nat.lt_of_succ_lt_succ hk) ys j)

/-- A bit behind the front part is flipped in the rest. -/
theorem flipBit_append_right : ∀ {xs : List Byte} {k : Nat}, xs.length ≤ k → ∀ (ys : List Byte) (j : Nat),
    flipBit (xs ++ ys) k j = xs ++ flipBit ys (k - xs.length) j
  | [], _, _, _, _ => rfl
  | x :: xs, k + 1, hk, ys, j => by
    rw [List.length_cons, Nat.add_sub_add_right]
    exact congrArg (x :: ·) (flipBit_append_right (Nat.le_of_succ_le_succ hk) ys j)

/-- Flipping a bit changes the bytes, since it changes their CRC. -/
theorem flipBit_ne {bs : List Byte} (hk : k < bs.length) (hj : j < 8) : flipBit bs k j ≠ bs := fun h =>
  crc16_flipBit_ne hardware_crcPoly_odd hj k 0#16 hk (congrArg (crc16 Params.hardware · 0#16) h)

/-- The two bytes of a CRC field with one bit flipped are those of another CRC. -/
theorem flipBit_bytesLe16 (crc : U16) (hk : k < 2) (hj : j < 8) :
    ∃ crc', flipBit (bytesLe16 crc) k j = bytesLe16 crc' ∧ crc' ≠ crc := by
  obtain ⟨b0, b1, hb⟩ := List.length_eq_two.mp (flipBit_length (bytesLe16 crc) k j)
  have hcrc' : flipBit (bytesLe16 crc) k j = bytesLe16 (le16 b0 b1) := by rw [hb]; simp [bytesLe16]
  exact ⟨le16 b0 b1, hcrc', fun h => flipBit_ne hk hj (h ▸ hcrc')⟩

/-- One bit flipped behind bytes that stay as they are changes the CRC over all of them. -/
theorem crc16_append_flipBit_ne (front : List Byte) {bs : List Byte} (seed : U16) (hk : k < bs.length) (hj : j < 8) :
    crc16 Params.hardware (front ++ flipBit bs k j) seed ≠ crc16 Params.hardware (front ++ bs) seed := by
  rw [crc16_append, crc16_append]
  exact crc16_flipBit_ne hardware_crcPoly_odd hj k _ hk

/-- Format FRAMED as header, CRC field and body (R72). -/
theorem framedFrame_eq (p : Params) (typ : Byte) (crc : U16) (body : List Byte) :
    framedFrame p typ crc body = framedHeader p typ (lenField body) ++ (bytesLe16 crc ++ body) := List.append_assoc ..

/-- A bit flipped in the CRC field or the body of a correct CMD or DATA frame gives a frame of the same type and length
whose CRC field is wrong. -/
theorem flipBit_framedFrame {typ : Byte} {crc : U16} {body : List Byte}
    (hcrc : crc = framedCrc Params.hardware typ (lenField body) body)
    (h4 : 4 ≤ k) (hk : k < 6 + body.length) (hj : j < 8) :
    ∃ crc' body', flipBit (framedFrame Params.hardware typ crc body) k j = framedFrame Params.hardware typ crc' body' ∧
      body'.length = body.length ∧ framedCrc Params.hardware typ (lenField body') body' ≠ crc' := by
  have hflip : flipBit (framedFrame Params.hardware typ crc body) k j =
      framedHeader Params.hardware typ (lenField body) ++ flipBit (bytesLe16 crc ++ body) (k - 4) j := by
    rw [framedFrame_eq]
    exact flipBit_append_right h4 _ j
  by_cases hfield : k - 4 < 2
  · obtain ⟨crc', hcrc', hne⟩ := flipBit_bytesLe16 crc hfield hj
    exact ⟨crc', body, by rw [hflip, flipBit_append_left hfield, hcrc', framedFrame_eq], rfl,
      fun h => hne (h.symm.trans hcrc.symm)⟩
  · have hlen : lenField (flipBit body (k - 4 - 2) j) = lenField body := by simp [lenField]
    refine ⟨crc, flipBit body (k - 4 - 2) j, ?_, flipBit_length .., ?_⟩
    · rw [hflip, flipBit_append_right (not_lt.mp hfield), framedFrame_eq, hlen]; rfl
    · rw [hlen, hcrc]
      exact crc16_append_flipBit_ne _ _ (by omega) hj

end

/-- Settles O28: the flipped frame is walked like any other, and its CRC field is not that of its bytes. -/
theorem oneFlippedBitIsReported : Obligations.OneFlippedBitIsReported := by
  rintro s typ crc body frame k j hs hok hcrc rfl h4 hk hj
  obtain ⟨m, hm, hl, -⟩ := maxLen_of_framedOk hok
  obtain ⟨crc', body', hflip, hlen, hne⟩ :=
    flipBit_framedFrame (typ := typ) hcrc h4 (by simp at hk; omega) hj
  obtain ⟨t, ht, hst, -, -, -, -, -, -, hev, -⟩ := framedFrame_from_start hm crc' body' hs (hlen ▸ hl)
  exact ⟨t, hflip ▸ ht, hst, by rw [hev, hlen, if_neg hne]⟩

end Sys2Proof.Machine

/-! ### PING_RSP: the body read as fields and CRC (42_frame_types.md R156, R158, last sentence) -/

namespace Sys2Proof.Machine

section

variable {s : State} {fields : List Byte} {k j : Nat}

/-- A PING_RSP frame from Start, its body six field bytes and a CRC: what it leaves, and the packet where it is Rx. -/
theorem pingRspFrame_from_start (hl : fields.length = 6) (crc : U16) (hs : s.st = .start) :
    ∃ t, feed Params.hardware (pingRspFrame Params.hardware (fields ++ bytesLe16 crc)) s = .next t ∧ t.st = .start ∧
      t.events = s.events ++ nones 9 ++
        [if crc16 Params.hardware ([0x5A#8, 0xA7#8] ++ fields) 0#16 = crc then .rx else .rxErrorCrc] ∧
      packet Params.hardware t = some (.pingRsp 0xA7#8 (fields ++ bytesLe16 crc)) := by
  have hbody : (fields ++ bytesLe16 crc).length = 8 := by simp [hl]
  have hcrc : pingRspCrc Params.hardware fields = crc16 Params.hardware ([0x5A#8, 0xA7#8] ++ fields) 0#16 := by
    rw [pingRspCrc, List.take_of_length_le (by simp [hl])]; rfl
  refine ⟨_, feed_pingRspFrame _ s hs hbody, rfl, ?_, ?_⟩
  · rw [pingRspCrc_append_crc hl, pingRspRxCrc_append_crc hl, hcrc]; rfl
  · rw [packet_pingRsp frameKind_pingRsp, Params.hardware_pingRspBodyLen, bufSlice_of_putAll hbody rfl]

/-- A bit flipped in the body of a correct PING_RSP frame gives a PING_RSP frame whose CRC is wrong. -/
theorem flipBit_pingRspFrame {crc : U16} (hl : fields.length = 6)
    (hcrc : crc = crc16 Params.hardware ([0x5A#8, 0xA7#8] ++ fields) 0#16) (h2 : 2 ≤ k) (hk : k < 10) (hj : j < 8) :
    ∃ fields' crc', flipBit (pingRspFrame Params.hardware (fields ++ bytesLe16 crc)) k j =
        pingRspFrame Params.hardware (fields' ++ bytesLe16 crc') ∧
      fields'.length = 6 ∧ crc16 Params.hardware ([0x5A#8, 0xA7#8] ++ fields') 0#16 ≠ crc' := by
  have hflip : flipBit (pingRspFrame Params.hardware (fields ++ bytesLe16 crc)) k j =
      pingRspFrame Params.hardware (flipBit (fields ++ bytesLe16 crc) (k - 2) j) :=
    flipBit_append_right (xs := [0x5A#8, 0xA7#8]) h2 _ j
  by_cases hfields : k - 2 < 6
  · refine ⟨flipBit fields (k - 2) j, crc, by rw [hflip, flipBit_append_left (by omega)], by simp [hl], ?_⟩
    rw [hcrc]
    exact crc16_append_flipBit_ne _ _ (by omega) hj
  · obtain ⟨crc', hfield, hne⟩ := flipBit_bytesLe16 crc (k := k - 2 - fields.length) (by omega) hj
    exact ⟨fields, crc', by rw [hflip, flipBit_append_right (by omega), hfield], hl,
      fun h => hne (h.symm.trans hcrc.symm)⟩

end

/-- Settles O29: the walk with the CRC of its fields is Rx; with any bit of its body flipped it is that of a frame whose
CRC is wrong. -/
theorem pingRspIsReportedAndItsFlippedBitsToo : Obligations.PingRspIsReportedAndItsFlippedBitsToo := by
  rintro s fields frame crc hs hl hcrc rfl
  refine ⟨?_, fun k j h2 hk hj => ?_⟩
  · obtain ⟨t, ht, hst, hev, hpacket⟩ := pingRspFrame_from_start hl crc hs
    exact ⟨t, ht, hst, by rw [hev, if_pos hcrc.symm], hpacket⟩
  · obtain ⟨fields', crc', hflip, hl', hne⟩ := flipBit_pingRspFrame hl hcrc h2 hk hj
    obtain ⟨t, ht, hst, hev, -⟩ := pingRspFrame_from_start hl' crc' hs
    exact ⟨t, hflip ▸ ht, hst, by rw [hev, if_neg hne]⟩

end Sys2Proof.Machine

/-! ### What the encoders build, and what they refuse (43_encoders.md R170 to R175) -/

namespace Sys2Proof.Machine

section

variable {p : Params} {tag flags : Byte} {n : BitVec 4} {params : List U32} {len : U16}
  {body payload : List Byte}

/-- The six bytes before the body of a FRAMED frame: header, length, and the CRC that covers them and the body (R86). -/
def headerWithCrc (p : Params) (typ : Byte) (body : List Byte) : List Byte :=
  framedHeader p typ (lenField body) ++ bytesLe16 (framedCrc p typ (lenField body) body)

theorem headerWithCrc_append (p : Params) (typ : Byte) (body : List Byte) :
    headerWithCrc p typ body ++ body = framedFrame p typ (framedCrc p typ (lenField body) body) body := rfl

@[simp] theorem headerWithCrc_length (p : Params) (typ : Byte) (body : List Byte) :
    (headerWithCrc p typ body).length = 6 := rfl

/-- `build_cmdrsp` within its limit: header and body (R172). -/
theorem buildCmdrsp_eq_some (h : params.length ≤ p.maxParams) :
    buildCmdrsp p tag flags params =
      some (headerWithCrc p p.typeCmd (cmdrspBody tag flags params) ++ cmdrspBody tag flags params) :=
  if_neg (not_lt.mpr h)

/-- `build_data` within its limit: the header without the payload (R173). -/
theorem buildData_eq_some (h : payload.length ≤ p.maxDataLen) :
    buildData p payload = some (headerWithCrc p p.typeData payload) :=
  if_neg (not_lt.mpr h)

theorem exec_encCmdrsp (tag flags : Byte) (s : State) (hn : n.toNat ≤ 7) (hl : params.length = n.toNat) :
    exec (.encCmdrsp tag flags n params) s = .next { s with
      txData := headerWithCrc Params.hardware 0xA4#8 (cmdrspBody tag flags params) ++ cmdrspBody tag flags params
      encErr := false } := by
  have hbuilt := buildCmdrsp_eq_some (p := Params.hardware) (tag := tag) (flags := flags) (hl.trans_le hn)
  simp [exec, execEncCmdrsp, hn, hbuilt]

theorem exec_encData (s : State) (hn : len.toNat ≤ 256) (hl : payload.length = len.toNat) :
    exec (.encData len payload) s =
      .next { s with txData := headerWithCrc Params.hardware 0xA5#8 payload, encErr := false } := by
  have hbuilt := buildData_eq_some (p := Params.hardware) (hl.trans_le hn)
  simp [exec, execEncData, hn, hbuilt]

/-- A count above 7 is refused, whatever the operands (R175). -/
theorem exec_encCmdrsp_refused (tag flags : Byte) (params : List U32) (s : State) (hn : 7 < n.toNat) :
    exec (.encCmdrsp tag flags n params) s = .next { s with txData := [], encErr := true } := by
  simp [exec, execEncCmdrsp, not_le.mpr hn]

/-- A length above 256 is refused, whatever the payload (R175). -/
theorem exec_encData_refused (payload : List Byte) (s : State) (hn : 256 < len.toNat) :
    exec (.encData len payload) s = .next { s with txData := [], encErr := true } := by
  simp [exec, execEncData, not_le.mpr hn]

/-! ### The ports: the operands the client gives (R89, R90) -/

/-- Reading the first entries of a list that has them reads no value in place of a missing one. -/
theorem map_getD_range {α : Type} (f : Nat → α) {l front : List α} {m : Nat} (hl : front.length = m)
    (h : l.take m = front) : (List.range m).map (fun k => l.getD k (f k)) = front := by
  subst h
  have hm : m ≤ l.length := by simpa using hl
  refine List.ext_getElem (by simpa using hm) fun k hk _ => ?_
  have hkl : k < l.length := lt_of_lt_of_le (by simpa using hk) hm
  simp [hkl]

/-- `enc_op` = 3 (R89, R90). -/
theorem decodeEnc_cmdrsp {e : EncIn} (hop : e.op = 3) (hn : e.n.toNat ≤ 7) (hl : params.length = e.n.toNat)
    (hparams : e.params.take e.n.toNat = params) :
    decodeEnc Params.hardware e = .ok (.encCmdrsp e.tag e.flags e.n params) := by
  have hread : readParams e.params (paramsRead Params.hardware e.n) = params := by
    rw [paramsRead, if_pos (by exact hn)]
    exact map_getD_range Config.undrivenParam hl hparams
  simp [decodeEnc, hop, hread]

/-- `enc_op` = 4 (R89, R90). -/
theorem decodeEnc_data {e : EncIn} (hop : e.op = 4) (hn : e.len.toNat ≤ 256) (hl : payload.length = e.len.toNat)
    (hpayload : e.payload.take e.len.toNat = payload) :
    decodeEnc Params.hardware e = .ok (.encData e.len payload) := by
  have hread : readPayload e.payload (payloadRead Params.hardware e.len) = payload := by
    rw [payloadRead, if_pos (by exact hn)]
    exact map_getD_range Config.undrivenPayload hl hpayload
  simp [decodeEnc, hop, hread]

/-! ### The bytes of the header -/

/-- A body of the length a length field declares has that length field (R76). -/
theorem lenField_eq (h : body.length = len.toNat) : lenField body = len := by simp [lenField, h]

theorem lo_lenField (body : List Byte) : lo (lenField body) = BitVec.ofNat 8 body.length := by
  simp [lo, lenField, BitVec.setWidth_ofNat_of_le]

theorem hi_lenField (h : body.length < 256) : hi (lenField body) = 0#8 := by
  apply BitVec.eq_of_toNat_eq
  rw [hi_toNat, lenField_toNat (by omega)]
  simp [Nat.div_eq_of_lt h]

/-- The header before a body whose length fits the low length byte (R72, R86). -/
theorem headerWithCrc_of_length_lt (typ : Byte) (h : body.length < 256) :
    headerWithCrc Params.hardware typ body =
      [0x5A#8, typ, BitVec.ofNat 8 body.length, 0x00#8] ++
        bytesLe16 (crc16 Params.hardware ([0x5A#8, typ, BitVec.ofNat 8 body.length, 0x00#8] ++ body) 0#16) := by
  rw [← lo_lenField, ← hi_lenField h]
  rfl

/-- The body of `build_cmdrsp` with the operand `enc_n` as its count (R172). -/
theorem cmdrspBody_eq (tag flags : Byte) (hl : params.length = n.toNat) :
    cmdrspBody tag flags params = [tag, flags, 0x00#8, n.setWidth 8] ++ params.flatMap bytesLe32 := by
  rw [cmdrspBody, hl, BitVec.ofNat_toNat]

end

/-- Settles O31: both builders are constant, and their codes are 1 and 2. -/
theorem pingAndAckAreBuilt : Obligations.PingAndAckAreBuilt := fun _ => ⟨rfl, rfl, rfl, rfl⟩

/-- Settles O34: the refusals of the two encoders. -/
theorem encoderRefusesExcess : Obligations.EncoderRefusesExcess := fun s =>
  ⟨fun tag flags _ params hn => exec_encCmdrsp_refused tag flags params s hn,
    fun _ payload hn => exec_encData_refused payload s hn⟩

/-- Settles O32: the frame of a body whose length, 4 + 4n, fits the low length byte. -/
theorem cmdrspIsBuilt : Obligations.CmdrspIsBuilt := by
  refine ⟨?_, fun s tag flags n params hn => exec_encCmdrsp_refused tag flags params s hn⟩
  rintro s tag flags n params body len c hn hl hbody rfl hc
  obtain rfl : cmdrspBody tag flags params = body := (cmdrspBody_eq tag flags hl).trans hbody.symm
  have hlen : (cmdrspBody tag flags params).length = 4 + 4 * n.toNat := by rw [cmdrspBody_length, hl]
  have hheader : headerWithCrc Params.hardware 0xA4#8 (cmdrspBody tag flags params) =
      [0x5A#8, 0xA4#8, BitVec.ofNat 8 (4 + 4 * n.toNat), 0x00#8, lo c, hi c] := by
    rw [headerWithCrc_of_length_lt _ (by omega), hlen, ← hc]
    rfl
  rw [← hheader]
  refine ⟨exec_encCmdrsp tag flags s hn hl, by rw [List.length_append, headerWithCrc_length, hlen]; omega, ?_⟩
  rintro e hop rfl rfl rfl hparams
  exact decodeEnc_cmdrsp hop hn hl hparams

/-- Settles O33: the six bytes before the payload. -/
theorem dataHeaderIsBuilt : Obligations.DataHeaderIsBuilt := by
  refine ⟨?_, fun s len payload hn => exec_encData_refused payload s hn⟩
  rintro s len payload c hn hl rfl
  refine ⟨?_, fun e hop hlen hpayload => ?_⟩
  · rw [exec_encData s hn hl, headerWithCrc, lenField_eq hl]
    rfl
  · subst hlen
    exact decodeEnc_data hop hn hl hpayload

end Sys2Proof.Machine

/-! ### What the encoders build the parser accepts (43_encoders.md R178) -/

namespace Sys2Proof.Machine

section

variable {p : Params} {params : List U32}

/-- A frame with its own CRC, within the limit of its type, from Start: None for every byte but the last, then Rx, with
the body in the buffer (R132, R158(a)). -/
theorem feed_headerWithCrc {d : State} {typ : Byte} {m : Nat} {body : List Byte}
    (hm : maxLen Params.hardware typ = some m) (h256 : m ≤ 256) (hd : d.st = .start) (hl : body.length ≤ m) :
    ∃ t, feed Params.hardware (headerWithCrc Params.hardware typ body ++ body) d = .next t ∧ t.st = .start ∧
      t.events = d.events ++ nones (5 + body.length) ++ [.rx] ∧ t.typ = typ ∧ t.len = lenField body ∧
      bufSlice t t.len.toNat = body := by
  rw [headerWithCrc_append]
  obtain ⟨t, ht, hst, htyp, hlen, -, -, hbody, -, hev, -⟩ :=
    framedFrame_from_start hm (framedCrc Params.hardware typ (lenField body) body) body hd hl
  exact ⟨t, ht, hst, by rw [hev, if_pos rfl], htyp, hlen, by rw [hlen, lenField_toNat (by omega), hbody]⟩

/-! ### The view of a CmdRsp body (30_encoding.md R87) -/

/-- Four bytes further on stands the next parameter. -/
theorem bodyParam_succ (b0 b1 b2 b3 : Byte) (rest : List Byte) (k : Nat) :
    bodyParam (b0 :: b1 :: b2 :: b3 :: rest) (k + 1) = bodyParam rest k := rfl

/-- The view gives back the parameters written after the first four bytes, and none beyond them (R78, R87). -/
theorem bodyParam_flatMap : ∀ (params : List U32) (b0 b1 b2 b3 : Byte) (k : Nat),
    bodyParam (b0 :: b1 :: b2 :: b3 :: params.flatMap bytesLe32) k = params[k]?
  | [], b0, b1, b2, b3, k => by simp [bodyParam]
  | v :: _, _, _, _, _, 0 => congrArg some (le32_bytesLe32 v)
  | _ :: vs, b0, b1, b2, b3, k + 1 => (bodyParam_succ b0 b1 b2 b3 _ k).trans (bodyParam_flatMap vs _ _ _ _ k)

/-- The byte `param_count` of the body the encoder builds. -/
theorem bodyByte_cmdrspBody_three (tag flags : Byte) (params : List U32) :
    bodyByte (cmdrspBody tag flags params) 3 = some (BitVec.ofNat 8 params.length) := rfl

/-- What the view reads in the body the encoder builds (R87). -/
theorem cmdView_cmdrspBody (tag flags : Byte) (h : params.length < 256) :
    cmdView (cmdrspBody tag flags params) =
      { tag := some tag, flags := some flags, rsvd := some 0x00#8, paramCount := some (BitVec.ofNat 8 params.length),
        params := params.map some } := by
  have hcount : (BitVec.ofNat 8 params.length).toNat = params.length := Nat.mod_eq_of_lt h
  have hparams : (List.range params.length).map (bodyParam (cmdrspBody tag flags params)) = params.map some :=
    List.ext_getElem (by simp) fun k hk _ => by
      have hkl : k < params.length := by simpa using hk
      simp [cmdrspBody, bodyParam_flatMap, hkl]
  simp only [cmdView, bodyByte_cmdrspBody_three, hcount, hparams]
  rfl

/-- The body the encoder builds is well-formed (R87). -/
theorem cmdWf_cmdrspBody (tag flags : Byte) (h : params.length < 256) (hmax : params.length ≤ p.maxParams) :
    cmdWf p (cmdrspBody tag flags params) = true := by
  have hcount : (BitVec.ofNat 8 params.length).toNat = params.length := Nat.mod_eq_of_lt h
  simp [cmdWf, bodyByte_cmdrspBody_three, hcount, hmax, cmdrspBody_length]

theorem cmdRsvdOk_cmdrspBody (tag flags : Byte) (params : List U32) : cmdRsvdOk (cmdrspBody tag flags params) = true :=
  rfl

end

/-- Settles O35: the frame of the built body ends with Rx, and the view of that body gives the operands back. -/
theorem builtCmdrspIsReceived : Obligations.BuiltCmdrspIsReceived := by
  intro s d tag flags n params hd hn hl
  have hlen : (cmdrspBody tag flags params).length = 4 + 4 * n.toNat := by rw [cmdrspBody_length, hl]
  have h256 : params.length < 256 := by omega
  obtain ⟨t, ht, hst, hev, htyp, -, hbody⟩ :=
    feed_headerWithCrc (typ := 0xA4#8) (m := 32) (body := cmdrspBody tag flags params) rfl (by decide) hd (by omega)
  refine ⟨_, t, exec_encCmdrsp tag flags s hn hl, ht, hst, by rw [hev, hlen, ← Nat.add_assoc], htyp, ?_⟩
  rw [hbody, cmdView_cmdrspBody tag flags h256, hl, BitVec.ofNat_toNat]
  exact ⟨cmdWf_cmdrspBody tag flags h256 (hl.trans_le hn), cmdRsvdOk_cmdrspBody tag flags params, rfl⟩

/-- Settles O36: the built header and the payload are one frame that ends with Rx; the two bare frames end with Rx. -/
theorem builtDataPingAckAreReceived : Obligations.BuiltDataPingAckAreReceived := by
  refine ⟨fun s d len payload hd hn hl => ?_, fun s d hd =>
    ⟨⟨_, rfl, feed_bareFrame_from_start frameKind_ping rfl hd⟩,
      ⟨_, rfl, feed_bareFrame_from_start frameKind_ack rfl hd⟩⟩⟩
  obtain ⟨t, ht, hst, hev, htyp, htlen, hbody⟩ :=
    feed_headerWithCrc (typ := 0xA5#8) (m := 256) rfl le_rfl hd (hl.trans_le hn)
  rw [lenField_eq hl] at htlen
  exact ⟨_, t, exec_encData s hn hl, ht, hst, hev, htyp, htlen, htlen ▸ hbody⟩

end Sys2Proof.Machine

/-! ### Reset (70_reset_and_hazards.md R220) -/

namespace Sys2Proof.Machine

section

variable {d : Except Reject Instr} {i : Instr} {s t : State}

/-- No instruction resets: `rst` is no operation (R89, R220). -/
theorem exec_keeps_resets (h : exec i s = .next t) : t.resets = s.resets := by
  obtain ⟨-, -, -, -, hresets⟩ := unitsShareNoState i s t h
  exact hresets

theorem runUnit_keeps_resets (h : runUnit d s = .next t) : t.resets = s.resets := by
  cases d with
  | ok i => exact exec_keeps_resets h
  | error r => cases h; rfl

/-- An edge without `rst` resets nothing, whatever its three ports carry. -/
theorem runEdge_keeps_resets {e : Edge} (hrst : e.rst = false) (h : runEdge e s = .next t) : t.resets = s.resets := by
  rw [runEdge_ops hrst] at h
  obtain ⟨u, hu, h⟩ := andThen_eq_next.mp h
  obtain ⟨v, hv, ht⟩ := andThen_eq_next.mp h
  exact (runUnit_keeps_resets ht).trans ((runUnit_keeps_resets hv).trans (runUnit_keeps_resets hu))

theorem runWire_keeps_resets {bytes : List Byte} {rest : List Presented} (h : runWire bytes rest s = .next t) :
    t.resets = s.resets := by
  cases bytes with
  | nil => cases h; rfl
  | cons b bs => exact exec_keeps_resets (s := { s with inputs := pushWire bs rest }) (runWire_cons b bs rest s ▸ h)

theorem runFrame_keeps_resets {bytes : List Byte} {rest : List Presented} (h : runFrame bytes rest s = .next t) :
    t.resets = s.resets := by
  cases hd : decodeFrame Params.hardware bytes with
  | error r => exact runWire_keeps_resets (runFrame_error hd ▸ h)
  | ok x => exact exec_keeps_resets (s := { s with inputs := pushWire x.2 rest }) (runFrame_ok hd ▸ h)

/-- A step either leaves the count of resets alone or is an edge with `rst`. -/
theorem step_keeps_resets_or_rst (h : step s = .next t) :
    t.resets = s.resets ∨ ∃ e rest, s.inputs = .edge e :: rest ∧ e.rst = true := by
  cases hin : s.inputs with
  | nil => cases step_nothing hin ▸ h; exact .inl rfl
  | cons x rest =>
    cases x with
    | wire bytes => exact .inl (runWire_keeps_resets (s := clearOutputs s) (step_wire hin ▸ h))
    | frame bytes => exact .inl (runFrame_keeps_resets (s := clearOutputs s) (step_frame hin ▸ h))
    | edge e =>
      cases hrst : e.rst with
      | false =>
        exact .inl (runEdge_keeps_resets (s := { clearOutputs s with inputs := rest }) hrst (step_edge hin ▸ h))
      | true => exact .inr ⟨e, rest, rfl, hrst⟩

end

/-- Settles O40: reset leaves `st` = Start, no buffer byte written and no result on the outputs, and Start asks nothing
of the unspecified registers. -/
theorem resetIsSafe : Obligations.ResetIsSafe :=
  inv_of_start reset_st reset_buf_wf (Nat.zero_le _) fun _ => reset_txData

/-- Settles O41: an edge with `rst` is `applyReset` whatever its ports carry, and every other step keeps the count. -/
theorem resetInputOverridesOperations : Obligations.ResetInputOverridesOperations :=
  ⟨reset_st, reset_crcAcc,
    fun _ _ _ hin hrst => ⟨_, (step_edge hin).trans (runEdge_rst hrst _), rfl, rfl, rfl, rfl, rfl, rfl, rfl⟩,
    fun _ _ h hne => (step_keeps_resets_or_rst h).resolve_left hne⟩

end Sys2Proof.Machine

/-! ### What DEC.BYTE reads (70_reset_and_hazards.md R222) -/

namespace Sys2Proof.Machine

/-- Two parsers agree on all that the evaluation and the packet of a frame read, its body as far as `n` bytes: `len` and
`crc_rx` where the frame has these fields. -/
structure SameFrame (p : Params) (n : Nat) (s t : State) : Prop where
  typ : t.typ = s.typ
  fields : ∀ k, frameKind p s.typ = some k → k = .cmd ∨ k = .data → t.len = s.len ∧ t.crcRx = s.crcRx
  body : ∀ i < n, bufByte t i = bufByte s i

/-- What two parsers hold in common of the frame in progress, by the value of `st`: the registers and the body bytes
that the frame has written (R134, R222). In Start it is the packet just reported, if there is one. -/
def SameWritten (p : Params) (s t : State) : Prop :=
  match s.st with
  | .start => s.events.getLast? = some .rx → packet p t = packet p s
  | .type => True
  | .lenLow => t.typ = s.typ ∧ ∃ m, maxLen p s.typ = some m
  | .lenHigh | .crcLow => (t.typ = s.typ ∧ ∃ m, maxLen p s.typ = some m) ∧ t.len = s.len
  | .crcHigh => (t.typ = s.typ ∧ ∃ m, maxLen p s.typ = some m) ∧ t.len = s.len ∧ t.crcRx = s.crcRx
  | .data => SameFrame p s.idx.toNat s t ∧ t.idx = s.idx
  | .done => False

/-- Two parsers that no byte of the stream has told apart: same `st`, same events, same of all that is written. -/
structure Alike (p : Params) (s t : State) : Prop where
  st : t.st = s.st
  events : t.events = s.events
  written : SameWritten p s t

section

variable {p : Params} {b : Byte} {s t s' : State} {n : Nat} {bytes : List Byte}

/-! ### The evaluation and the packet -/

/-- `need` reads `len` in CMD and DATA frames alone (R135). -/
theorem SameFrame.need_eq (h : SameFrame p n s t) : need p t.typ t.len = need p s.typ s.len := by
  rw [h.typ]
  cases hk : frameKind p s.typ with
  | none => simp [need, hk]
  | some k =>
    cases k with
    | ack | nak | ackAbort | ping | pingRsp => simp [need, hk]
    | cmd | data => rw [(h.fields _ hk (by simp)).1]

theorem SameFrame.bufSlice_eq {m : Nat} (h : SameFrame p n s t) (hm : m ≤ n) : bufSlice t m = bufSlice s m :=
  bufSlice_congr fun i hi => h.body i (hi.trans_le hm)

theorem SameFrame.bufPrefix_eq {m : Nat} (h : SameFrame p n s t) (hm : m ≤ n) : bufPrefix p t m = bufPrefix p s m := by
  simp only [bufPrefix, h.bufSlice_eq hm]

/-- The check of R132 reads `typ`, the fields of its frame and `need` body bytes. -/
theorem SameFrame.frameOk_eq (h : SameFrame p n s t) (hn : ∀ m, need p s.typ s.len = some m → m ≤ n) :
    frameOk p t = frameOk p s := by
  cases hk : frameKind p s.typ with
  | none => simp [frameOk, h.typ, hk]
  | some k =>
    cases k with
    | ack | nak | ackAbort | ping => simp [frameOk, h.typ, hk]
    | pingRsp => simp [frameOk, h.typ, hk, h.bufPrefix_eq (hn p.pingRspBodyLen (by simp [need, hk]))]
    | cmd | data =>
      obtain ⟨hlen, hcrc⟩ := h.fields _ hk (by simp)
      simp [frameOk, h.typ, hk, hlen, hcrc, h.bufPrefix_eq (hn s.len.toNat (by simp [need, hk]))]

/-- So does the packet of an Rx (R157). -/
theorem SameFrame.packet_eq (h : SameFrame p n s t) (hn : ∀ m, need p s.typ s.len = some m → m ≤ n) :
    packet p t = packet p s := by
  cases hk : frameKind p s.typ with
  | none => simp [packet, h.typ, hk]
  | some k =>
    cases k with
    | ack | nak | ackAbort | ping => simp [packet, h.typ, hk]
    | pingRsp => simp [packet, h.typ, hk, h.bufSlice_eq (hn p.pingRspBodyLen (by simp [need, hk]))]
    | cmd | data =>
      obtain ⟨hlen, hcrc⟩ := h.fields _ hk (by simp)
      simp [packet, h.typ, hk, hlen, hcrc, h.bufSlice_eq (hn s.len.toNat (by simp [need, hk]))]

/-- The packet of a bare frame is its type byte (R157). -/
theorem packet_bare {k : FrameKind} (htyp : s.typ = b) (hk : frameKind p b = some k) (hf : k.format = .bare) :
    packet p s = some (.bare b) := by
  subst htyp
  cases k with
  | ack | nak | ackAbort | ping => simp [packet, hk]
  | cmd | data | pingRsp => simp [FrameKind.format] at hf

/-- The evaluation reads what the check of R132 reads. -/
theorem evaluate_of_frameOk_eq (hok : frameOk p t = frameOk p s) (h : evaluate p s = .next s') :
    ∃ e, s' = endFrame e s ∧ evaluate p t = .next (endFrame e t) := by
  unfold evaluate at h
  split at h
  · next hs => exact ⟨.rx, by simpa using h.symm, by simp [evaluate, hok, hs]⟩
  · next hs => exact ⟨.rxErrorCrc, by simpa using h.symm, by simp [evaluate, hok, hs]⟩
  · simp at h

/-- Frames that agree on all their body bytes are evaluated alike, and the packets are the same. -/
theorem SameFrame.evaluate_alike (h : SameFrame p n s t) (hev : t.events = s.events)
    (hn : ∀ m, need p s.typ s.len = some m → m ≤ n) (he : evaluate p s = .next s') :
    ∃ t', evaluate p t = .next t' ∧ Alike p s' t' := by
  obtain ⟨e, rfl, ht⟩ := evaluate_of_frameOk_eq (h.frameOk_eq hn) he
  exact ⟨_, ht, rfl, by simp [hev], fun _ => h.packet_eq hn⟩

/-! ### DEC.BYTE and runs of bytes -/

/-- A body byte stored at the same index in both buffers extends the part they agree on. -/
theorem SameFrame.put {i j : Nat} (h : SameFrame p i s t) (hj : j = i) (b : Byte) :
    SameFrame p (i + 1) { s with buf := Memory.put i b s.buf } { t with buf := Memory.put j b t.buf } := by
  subst hj
  refine ⟨h.typ, h.fields, fun a ha => ?_⟩
  by_cases he : a = j
  · rw [he, bufByte_put_same, bufByte_put_same]
  · rw [bufByte_put_other t he, bufByte_put_other s he]
    exact h.body a (by omega)

/-- After an event other than Rx there is no packet, so parsers in Start have nothing to agree on. -/
theorem alike_of_start {e : Event} (hs : s.st = .start) (ht : t.st = .start) (hev : t.events = s.events)
    (hlast : s.events.getLast? = some e) (he : e ≠ .rx) : Alike p s t :=
  ⟨ht.trans hs.symm, hev, by
    simp only [SameWritten, hs]
    exact fun hrx => absurd (Option.some.inj (hlast.symm.trans hrx)) he⟩

/-- DEC.BYTE reads nothing but what the frame has written: row by row of the transition table (R134), alike parsers
answer alike. -/
theorem decByte_alike (h : Alike p s t) (hstep : decByte p b s = .next s') :
    ∃ t', decByte p b t = .next t' ∧ Alike p s' t' := by
  obtain ⟨hst, hev, hw⟩ := h
  cases decByte_row hstep with
  | marker hs hb ht =>
    subst ht
    exact ⟨_, decByte_of_row (.marker (hst.trans hs) hb rfl), rfl, by simp [hev], trivial⟩
  | discard hs hb ht =>
    subst ht
    exact ⟨_, decByte_of_row (.discard (hst.trans hs) hb rfl),
      alike_of_start hs (hst.trans hs) (by simp [hev]) List.getLast?_concat (by simp)⟩
  | bare hs k hk hf ht =>
    subst ht
    exact ⟨_, decByte_of_row (.bare (hst.trans hs) k hk hf rfl), rfl, by simp [hev],
      fun _ => (packet_bare (b := b) rfl hk hf).trans (packet_bare (b := b) rfl hk hf).symm⟩
  | pingRsp hs hk ht =>
    subst ht
    exact ⟨_, decByte_of_row (.pingRsp (hst.trans hs) hk rfl), rfl, by simp [hev],
      ⟨rfl, by simp [hk], by simp⟩, rfl⟩
  | framed hs k hk hf ht =>
    subst ht
    exact ⟨_, decByte_of_row (.framed (hst.trans hs) k hk hf rfl), rfl, by simp [hev], rfl, maxLen_of_framed hk hf⟩
  | badType hs hk ht =>
    subst ht
    exact ⟨_, decByte_of_row (.badType (hst.trans hs) hk rfl),
      alike_of_start rfl rfl (by simp [hev]) List.getLast?_concat (by simp)⟩
  | lenLow hs ht =>
    simp only [SameWritten, hs] at hw
    subst ht
    exact ⟨_, decByte_of_row (.lenLow (hst.trans hs) rfl), rfl, by simp [hev], hw, rfl⟩
  | lenHigh hs m hm hl ht =>
    simp only [SameWritten, hs] at hw
    obtain ⟨⟨htyp, hframed⟩, hlen⟩ := hw
    subst ht
    exact ⟨_, decByte_of_row (.lenHigh (hst.trans hs) m (htyp ▸ hm) (hlen ▸ hl) rfl), rfl, by simp [hev],
      ⟨htyp, hframed⟩, by simp [hlen]⟩
  | badLen hs m hm hl ht =>
    simp only [SameWritten, hs] at hw
    obtain ⟨⟨htyp, -⟩, hlen⟩ := hw
    subst ht
    exact ⟨_, decByte_of_row (.badLen (hst.trans hs) m (htyp ▸ hm) (hlen ▸ hl) rfl),
      alike_of_start rfl rfl (by simp [hev]) List.getLast?_concat (by simp)⟩
  | crcLow hs ht =>
    simp only [SameWritten, hs] at hw
    obtain ⟨hframed, hlen⟩ := hw
    subst ht
    exact ⟨_, decByte_of_row (.crcLow (hst.trans hs) rfl), rfl, by simp [hev], hframed, hlen, rfl⟩
  | crcHigh hs hl ht =>
    simp only [SameWritten, hs] at hw
    obtain ⟨⟨htyp, -⟩, hlen, hcrc⟩ := hw
    subst ht
    exact ⟨_, decByte_of_row (.crcHigh (hst.trans hs) (hlen ▸ hl) rfl), rfl, by simp [hev],
      ⟨htyp, fun _ _ _ => ⟨hlen, by simp [hcrc]⟩, by simp⟩, rfl⟩
  | empty hs hl he =>
    simp only [SameWritten, hs] at hw
    obtain ⟨⟨htyp, m, hm⟩, hlen, hcrc⟩ := hw
    have hsame : SameFrame p 0 { s with crcRx := le16 (lo s.crcRx) b, idx := 0#16, st := .done }
        { t with crcRx := le16 (lo t.crcRx) b, idx := 0#16, st := .done } :=
      ⟨htyp, fun _ _ _ => ⟨hlen, by simp [hcrc]⟩, by simp⟩
    obtain ⟨t', ht', halike⟩ := hsame.evaluate_alike hev (by simp [need_of_maxLen hm, hl]) he
    exact ⟨t', decByte_of_row (.empty (hst.trans hs) (hlen ▸ hl) ht'), halike⟩
  | body hs n hn hi hlast ht =>
    simp only [SameWritten, hs] at hw
    obtain ⟨hsame, hidx⟩ := hw
    obtain ⟨htyp, hfields, hbody⟩ := hsame.put (congrArg BitVec.toNat hidx) b
    have hle : (s.idx + 1#16).toNat ≤ s.idx.toNat + 1 := by simpa using Nat.mod_le (s.idx.toNat + 1) 65536
    subst ht
    refine ⟨_, decByte_of_row (.body (hst.trans hs) n (hsame.need_eq.trans hn) (hidx ▸ hi) (hidx ▸ hlast) rfl), hst,
      by simp [hev], ?_⟩
    simp only [SameWritten, emit_st, hs]
    exact ⟨⟨htyp, hfields, fun i hi => hbody i (hi.trans_le hle)⟩, by simp [hidx]⟩
  | last hs n hn hi hlast he =>
    simp only [SameWritten, hs] at hw
    obtain ⟨hsame, hidx⟩ := hw
    obtain ⟨htyp, hfields, hbody⟩ := hsame.put (congrArg BitVec.toNat hidx) b
    have hsame' : SameFrame p (s.idx.toNat + 1)
        { s with buf := Memory.put s.idx.toNat b s.buf, idx := s.idx + 1#16, st := .done }
        { t with buf := Memory.put t.idx.toNat b t.buf, idx := t.idx + 1#16, st := .done } := ⟨htyp, hfields, hbody⟩
    obtain ⟨t', ht', halike⟩ := hsame'.evaluate_alike hev (by simp [hn, hlast]) he
    exact ⟨t', decByte_of_row
      (.last (hst.trans hs) n (hsame.need_eq.trans hn) (hidx ▸ hi) (hidx ▸ hlast) ht'), halike⟩

/-- Alike parsers answer every run of bytes alike. -/
theorem feed_alike : ∀ {bytes : List Byte} {s t s' : State}, Alike p s t → feed p bytes s = .next s' →
    ∃ t', feed p bytes t = .next t' ∧ Alike p s' t'
  | [], _, t, _, h, hs' => by cases hs'; exact ⟨t, rfl, h⟩
  | b :: bs, s, t, s', h, hs' => by
    obtain ⟨u, hu, hs'⟩ := andThen_eq_next.mp (feed_cons p b bs s ▸ hs')
    obtain ⟨v, hv, huv⟩ := decByte_alike h hu
    obtain ⟨t', ht', halike⟩ := feed_alike huv hs'
    exact ⟨t', by rw [feed_cons, hv, andThen_next, ht'], halike⟩

/-- After a run of bytes that ends with Rx the parser is in Start: every event but None leaves it there (R133). -/
theorem feed_st_of_last_rx (hev : s.events = []) (h : feed p bytes s = .next t) (hrx : t.events.getLast? = some .rx) :
    t.st = .start := by
  refine feed_keeps (P := fun u => u.events.getLast? = some .rx → u.st = .start) (fun b u v _ hv hlast => ?_)
    (by simp [hev]) h hrx
  obtain ⟨e, he, hstart, -⟩ := decByte_event hv
  obtain rfl : e = .rx := by simpa [he] using hlast
  exact hstart (by simp)

end

/-- Settles O42: two parsers in Start without events are alike, whatever their registers and buffers hold, and stay
alike byte by byte; after an Rx both are in Start, where alike parsers have the same packet. -/
theorem unspecifiedRegistersAreNeverRead : Obligations.UnspecifiedRegistersAreNeverRead := by
  intro s t s' bytes hs ht hsev htev hfeed
  have halike : Alike Params.hardware s t :=
    ⟨ht.trans hs.symm, htev.trans hsev.symm, by simp [SameWritten, hs, hsev]⟩
  obtain ⟨t', ht', hst, hev, hw⟩ := feed_alike halike hfeed
  refine ⟨t', ht', hst, hev, fun hrx => ?_⟩
  simp only [SameWritten, feed_st_of_last_rx hsev hfeed hrx] at hw
  exact hw hrx

end Sys2Proof.Machine
